-- ==== Sys2Proof/Word.lean ====
section
/-! DEFINITION. The words of ARFS (00_scope.md R6, R9; 30_encoding.md R51): every value is unsigned, bit 0 is the
least significant bit. -/

namespace Sys2Proof

/-- A byte, 0..255 (R9). -/
abbrev Byte := BitVec 8

/-- A value of the cursor register, CUR_W = 5 bits (R6, R10). -/
abbrev Cursor := BitVec 5

/-- A transition key K[12:0] = {cur[4:0], in_byte[7:0]} (R51). -/
abbrev Key := BitVec 13

/-- The control inputs C[1:0] = {rst, in_valid} that select IDLE and RESET (R53). -/
abbrev Ctrl := BitVec 2

/-- A 24-byte frame, byte 0 first (R9, R12, R39). -/
abbrev Frame := Vector Byte 24

end Sys2Proof
end

