-- ==== Sys2Proof/Config.lean ====
section
/-! DEFINITION. What an implementation of ARFS fixes (00_scope.md R6) and the free values (93_implementation_defined.md
I1, I2). -/

namespace Sys2Proof

/-- FLOAT_FMT: the format of the ports temp_f and hum_f (R6, R50; 93 I7). -/
inductive FloatFmt where
  | binary32
  | binary64
  deriving DecidableEq, Repr

/-- INT_OUT_WIDTH: the width of the four integer ports (R6, R49; 93 I8). -/
inductive IntWidth where
  | w16
  | w32
  deriving DecidableEq, Repr

/-- The three named parameters of R6, fixed for a whole run. They stand in the state (log 6) so that a statement about
every state is a statement about every build. -/
structure Config where
  /-- RESYNC_RETEST: does a 0x42 in state 1 start a new header (R59; 90_conflicts.md C1). -/
  resyncRetest : Bool
  floatFmt : FloatFmt
  intOutWidth : IntWidth
  deriving DecidableEq, Repr

/-- The defaults of R6: the hardware this spec describes. -/
def Config.default : Config := ⟨false, .binary32, .w16⟩

/-- HDR0, header byte 1 (R6). -/
def hdr0 : Byte := 0x42

/-- HDR1, header byte 2 (R6). -/
def hdr1 : Byte := 0x4D

/-- FREE VALUES (log 5): the n-th byte whose value the spec leaves unspecified (I1: buf after a reset edge; I2: frame_q
after a reset edge). No body: nothing can be proved of it. -/
opaque Config.freeByte : Nat → Byte

end Sys2Proof
end

