-- ==== Sys2Proof/Syntax.lean ====
section
/-! DEFINITION. The operations of ARFS, one constructor per row of spec/opcode_table.json, in the table's order, and the
selectors that select them (30_encoding.md R51, R53, R54). -/

namespace Sys2Proof

/-- The operations. A key operation carries the bits its row leaves free: the byte, and the cursor where several
cursor values share the row. -/
inductive Instr where
  /-- HDR1_ACCEPT (R61): key 0x0042. -/
  | hdr1Accept
  /-- SYNC_SKIP (R60): key {0, x}, x other than 0x42. -/
  | syncSkip (x : Byte)
  /-- HDR2_ACCEPT (R62): key 0x014D. -/
  | hdr2Accept
  /-- HDR2_RETEST (R59): key 0x0142, only when RESYNC_RETEST. -/
  | hdr2Retest
  /-- HDR2_REJECT (R63): key {1, x}, x not taken by the two rows above. -/
  | hdr2Reject (x : Byte)
  /-- BODY_STORE (R64): key {c, x}, c in 2..22. -/
  | bodyStore (c : Cursor) (x : Byte)
  /-- LAST_STORE_EMIT (R66): key {23, x}. -/
  | lastStoreEmit (x : Byte)
  /-- CUR_ILLEGAL (R67): key {c, x}, c in 24..31. -/
  | curIllegal (c : Cursor) (x : Byte)
  /-- IDLE (R65): rst = 0, in_valid = 0. -/
  | idle
  /-- RESET (R115): rst = 1; in_valid is the bit that the row's mask leaves free. -/
  | reset (inValid : Bool)
  /-- EXT_PM25 (R83). -/
  | extPm25
  /-- EXT_TVOC (R84). -/
  | extTvoc
  /-- EXT_HCHO (R85). -/
  | extHcho
  /-- EXT_CO2 (R86). -/
  | extCo2
  /-- EXT_TEMP (R87). -/
  | extTemp
  /-- EXT_HUM (R88). -/
  | extHum
  deriving DecidableEq, Repr

/-- The six decoded fields (R91), each with the ports of one EXT row. -/
inductive Field where
  | pm25 | tvoc | hcho | co2 | temp | hum
  deriving DecidableEq, Repr

/-- What selects an operation: the control inputs (format CTRL2), the transition key (format KEY13), or, for the always
computed rows of format FRAME192, the field whose ports are read (log 2). -/
inductive Selector where
  | ctrl (c : Ctrl)
  | key (k : Key)
  | field (f : Field)
  deriving DecidableEq, Repr

end Sys2Proof
end

