-- ==== Sys2Proof/WellFormed.lean ====
section
/-! DEFINITION. Which terms of Instr stand for a key of their own row (30_encoding.md R53): the operand values that a row
of higher priority takes, or that the row does not match, are ill-formed. -/

namespace Sys2Proof

/-- The term is a key of its row in a build with the parameters cfg. -/
def Instr.wf (cfg : Config) : Instr → Bool
  | .hdr1Accept => true
  | .syncSkip x => x != hdr0
  | .hdr2Accept => true
  | .hdr2Retest => cfg.resyncRetest
  | .hdr2Reject x => x != hdr1 && !(cfg.resyncRetest && x == hdr0)
  | .bodyStore c _ => decide (2 ≤ c.toNat) && decide (c.toNat ≤ 22)
  | .lastStoreEmit _ => true
  | .curIllegal c _ => decide (24 ≤ c.toNat)
  | .idle => true
  | .reset _ => true
  | .extPm25 => true
  | .extTvoc => true
  | .extHcho => true
  | .extCo2 => true
  | .extTemp => true
  | .extHum => true

end Sys2Proof
end

