-- ==== Sys2Proof/Decode.lean ====
section
/-! DEFINITION. The decoder (30_encoding.md R51, R53, R54, R56): the transition map as rows of match and mask, the
control rows, the FRAME192 rows; total, rejecting by name. After it the encoder, and the reading of the opcode table's
numbered bits. -/

namespace Sys2Proof

/-- Why bits are no operation. -/
inductive Reject where
  /-- C = {0, 1}: a byte is offered, so the transition key selects, not the control inputs (R46, R53). -/
  | byteOffered
  /-- No row of the transition map matches the key (it never happens: the rows cover every key). -/
  | noRow
  /-- The control word has bits above C[1:0]. -/
  | ctrlTooWide
  /-- The key word has bits above K[12:0]. -/
  | keyTooWide
  /-- The bits are longer than a 24-byte frame. -/
  | frameTooWide
  /-- The table has no format of this length. -/
  | noFormat
  deriving DecidableEq, Repr

/-- The operations of the transition map R53. -/
inductive KeyOp where
  | hdr1Accept | syncSkip | hdr2Accept | hdr2Retest | hdr2Reject | bodyStore | lastStoreEmit | curIllegal
  deriving DecidableEq, Repr

/-- One match/mask pair of the transition map. -/
structure KeyRow where
  op : KeyOp
  mat : Key
  mask : Key
  priority : Nat
  deriving DecidableEq, Repr

/-- The transition map R53 with the unreachable keys of R56, in spec/opcode_table.json's order; within one cur value the
rows stand in ascending priority. -/
def keyRows : List KeyRow :=
  [ ⟨.hdr1Accept, 0x0042, 0x1FFF, 1⟩,
    ⟨.syncSkip, 0x0000, 0x1F00, 2⟩,
    ⟨.hdr2Accept, 0x014D, 0x1FFF, 1⟩,
    ⟨.hdr2Retest, 0x0142, 0x1FFF, 2⟩,
    ⟨.hdr2Reject, 0x0100, 0x1F00, 3⟩,
    ⟨.bodyStore, 0x0200, 0x1E00, 1⟩,
    ⟨.bodyStore, 0x0400, 0x1C00, 1⟩,
    ⟨.bodyStore, 0x0800, 0x1800, 1⟩,
    ⟨.bodyStore, 0x1000, 0x1C00, 1⟩,
    ⟨.bodyStore, 0x1400, 0x1E00, 1⟩,
    ⟨.bodyStore, 0x1600, 0x1F00, 1⟩,
    ⟨.lastStoreEmit, 0x1700, 0x1F00, 1⟩,
    ⟨.curIllegal, 0x1800, 0x1800, 1⟩ ]

/-- The key matches the row: K and mask = match (R53). -/
def KeyRow.covers (r : KeyRow) (k : Key) : Bool := k &&& r.mask == r.mat

/-- The row exists in this build: HDR2_RETEST only when RESYNC_RETEST (R53). -/
def KeyRow.present (cfg : Config) (r : KeyRow) : Bool := r.op != .hdr2Retest || cfg.resyncRetest

/-- bits 12..8 of the key (R51). -/
def keyCur (k : Key) : Cursor := k.extractLsb' 8 5

/-- bits 7..0 of the key (R51). -/
def keyByte (k : Key) : Byte := k.extractLsb' 0 8

/-- {cur, in_byte} (R51). -/
def keyOf (c : Cursor) (x : Byte) : Key := c ++ x

/-- The operation of a row with the key's bits as its operands. -/
def KeyOp.instr (op : KeyOp) (c : Cursor) (x : Byte) : Instr :=
  match op with
  | .hdr1Accept => .hdr1Accept
  | .syncSkip => .syncSkip x
  | .hdr2Accept => .hdr2Accept
  | .hdr2Retest => .hdr2Retest
  | .hdr2Reject => .hdr2Reject x
  | .bodyStore => .bodyStore c x
  | .lastStoreEmit => .lastStoreEmit x
  | .curIllegal => .curIllegal c x

/-- The complete decoder of the synchronizer (R53): the first row present that matches. -/
def decodeKey (cfg : Config) (k : Key) : Except Reject Instr :=
  match keyRows.find? (fun r => r.present cfg && r.covers k) with
  | some r => .ok (r.op.instr (keyCur k) (keyByte k))
  | none => .error .noRow

/-- The control rows (R53): RESET (match 2, mask 2, priority 0), then IDLE (match 0, mask 3). -/
def decodeCtrl (c : Ctrl) : Except Reject Instr :=
  if c &&& 2 == 2 then .ok (.reset (c.getLsbD 0))
  else if c &&& 3 == 0 then .ok .idle
  else .error .byteOffered

/-- The FRAME192 rows: mask 0 matches every frame, so the field that is read names the row (log 2). -/
def decodeField : Field → Instr
  | .pm25 => .extPm25
  | .tvoc => .extTvoc
  | .hcho => .extHcho
  | .co2 => .extCo2
  | .temp => .extTemp
  | .hum => .extHum

/-- The decoder: total on every selector. -/
def decode (cfg : Config) : Selector → Except Reject Instr
  | .ctrl c => decodeCtrl c
  | .key k => decodeKey cfg k
  | .field f => .ok (decodeField f)

/-- The encoder, written from the match column of R53 and the free bits of each row. -/
def encode : Instr → Selector
  | .hdr1Accept => .key 0x0042
  | .syncSkip x => .key (keyOf 0 x)
  | .hdr2Accept => .key 0x014D
  | .hdr2Retest => .key 0x0142
  | .hdr2Reject x => .key (keyOf 1 x)
  | .bodyStore c x => .key (keyOf c x)
  | .lastStoreEmit x => .key (keyOf 23 x)
  | .curIllegal c x => .key (keyOf c x)
  | .idle => .ctrl 0
  | .reset v => .ctrl (if v then 3 else 2)
  | .extPm25 => .field .pm25
  | .extTvoc => .field .tvoc
  | .extHcho => .field .hcho
  | .extCo2 => .field .co2
  | .extTemp => .field .temp
  | .extHum => .field .hum

/-- The six fields in the opcode table's order. -/
def allFields : List Field := [.pm25, .tvoc, .hcho, .co2, .temp, .hum]

/-- What a table word of nbits bits is (log 7). One byte is a control word CTRL2, two bytes a key KEY13. A word of 24
bytes is a frame FRAME192, and so is a word of no bits (a frame of zeros). A frame is matched by all six EXT rows, which
have no priority among them: the word names the first of them in the table's order, EXT_PM25. -/
def readTableWord (nbits w : Nat) : Except Reject Selector :=
  if nbits = 8 then
    if w < 4 then .ok (.ctrl (BitVec.ofNat 2 w)) else .error .ctrlTooWide
  else if nbits = 16 then
    if w < 8192 then .ok (.key (BitVec.ofNat 13 w)) else .error .keyTooWide
  else if nbits = 192 ∨ nbits = 0 then
    if w < 2 ^ nbits then .ok (.field .pm25) else .error .frameTooWide
  else .error .noFormat

/-- The build whose transition map holds every row of the opcode table, HDR2_RETEST among them. -/
def Config.table : Config := { Config.default with resyncRetest := true }

/-- The operation the decoder reads from a word of the opcode table (log 7). The table holds the row HDR2_RETEST, so it
is read with that row present; that concerns the one key 0x0142 (R69). -/
def decodeTableWord (nbits w : Nat) : Option Instr :=
  match readTableWord nbits w with
  | .ok sel => (decode Config.table sel).toOption
  | .error _ => none

end Sys2Proof
end

