-- ==== Sys2Proof/Machine/State.lean ====
section
/-! DEFINITION. The state of ARFS (10_state.md R10 to R22), with the model's own fields (logs 1, 2, 5, 6), the faults and
the refusals, and the state after reset (R20, R115). -/

namespace Sys2Proof.Machine

/-- The accumulation buffer's contents (R11): cells of addresses 0..23 in canonical form (Memory.wf). -/
abbrev Memory := List Host.Cell

/-- An integer output lane, INT_OUT_WIDTH bits wide (R45, R49). -/
inductive IntLane where
  | w16 (v : BitVec 16)
  | w32 (v : BitVec 32)
  deriving DecidableEq, Repr

/-- A floating-point output lane in the format FLOAT_FMT (R45, R50). -/
inductive FloatLane where
  | binary32 (bits : BitVec 32)
  | binary64 (bits : BitVec 64)
  deriving DecidableEq, Repr

/-- The decoder's output ports (R45). -/
structure Lanes where
  pm25 : IntLane
  tvoc : IntLane
  hcho : IntLane
  co2 : IntLane
  tempX10 : BitVec 16
  humX10 : BitVec 16
  tempF : FloatLane
  humF : FloatLane
  deriving DecidableEq, Repr

/-- What the outside does in one step (R46, R113). -/
inductive Stimulus where
  /-- A rising edge of clk with these levels on the input pins (R45). -/
  | edge (rst inValid : Bool) (inByte : Byte)
  /-- A read of the output ports of one decoded field, between two edges (R48; log 9). -/
  | sample (f : Field)
  deriving DecidableEq, Repr

/-- The state. -/
structure State where
  /-- The build's parameters (R6); no step changes them (log 6). -/
  cfg : Config
  /-- The cursor (R10). -/
  cur : Cursor
  /-- The accumulation buffer (R11). -/
  buf : Memory
  /-- The frame output register (R12). -/
  frameQ : Frame
  /-- One once a frame has been emitted since reset (R13). -/
  frameHeld : Bool
  /-- The emission strobe (R14). -/
  frameValid : Bool
  /-- MODEL'S OWN: what the outside does at the next steps, first one first (log 1). -/
  pending : List Stimulus
  /-- MODEL'S OWN: what the reader of the ports last read from each (log 2). -/
  sampled : Lanes
  /-- MODEL'S OWN: how many free bytes have been drawn (log 5). -/
  draws : Nat
  deriving DecidableEq, Repr

/-- Why the machine stops. -/
inductive Fault where
  /-- A read of a decoder output while frame_held = 0 (R13, R120; 93 I3). Raised by the six EXT rows. Safe: the spec says
  the outputs are unspecified then and that a model faults the read. -/
  | readBeforeFrame
  /-- A BODY_STORE term whose cursor is not in 2..22, so no key of that row (R64). Raised by exec on an ill-formed term
  only, never by step. Safe: it stops where the hardware has no such operation. -/
  | keyOutsideRow
  deriving DecidableEq, Repr

/-- Why an operation has no meaning. -/
inductive Refusal where
  /-- The operation has no meaning yet; raised by the refused arms of exec, of which there are none. Safe. -/
  | notModelled (mnemonic : String)
  /-- The decoder rejected what step selected; step never selects such bits. Safe. -/
  | noOperation
  deriving DecidableEq, Repr

/-- Zero on every lane, in the default formats (log 2). -/
def Lanes.zero : Lanes := ⟨.w16 0, .w16 0, .w16 0, .w16 0, 0, 0, .binary32 0, .binary32 0⟩

/-- The machine right after reset (R20): cur = 0, frame_held = 0, frame_valid = 0. The spec leaves buf and frame_q
unspecified; here they are 0 (logs 3, 4: DESIGN CHOICE). -/
def State.reset : State where
  cfg := Config.default
  cur := 0
  buf := []
  frameQ := Vector.replicate 24 0
  frameHeld := false
  frameValid := false
  pending := []
  sampled := Lanes.zero
  draws := 0

end Sys2Proof.Machine
end

