-- ==== Sys2Proof/Machine/Flags.lean ====
section
/-! DEFINITION. The two status bits (40_synchronizer.md, its opening; 10_state.md R13, R14; R77). -/

namespace Sys2Proof.Machine

/-- A clock edge at which nothing is emitted: frame_valid <- 0, frame_held unchanged (R14, R77). -/
def State.strobeLow (s : State) : State := { s with frameValid := false }

/-- An emission: frame_held <- 1, frame_valid <- 1 (R66). -/
def State.strobeHigh (s : State) : State := { s with frameHeld := true, frameValid := true }

/-- Reset: frame_held <- 0, frame_valid <- 0 (R115). -/
def State.clearFlags (s : State) : State := { s with frameHeld := false, frameValid := false }

end Sys2Proof.Machine
end

