-- ==== Sys2Proof/Machine/Ops.lean ====
section
/-! DEFINITION. The named operations over the two arrays of 20_memory.md R30. There is no operation that takes an
exception or returns from one: the block has none (60_exceptions.md R100, R104). -/

namespace Sys2Proof.Machine

/-- What a cell that is not listed reads as (log 3). -/
def unlistedByte : Byte := 0

/-- MemRead(i, 1) of R9: the byte at index a. -/
def Memory.read (m : Memory) (a : Nat) : Byte :=
  match m.find? (fun c => c.1 == a) with
  | some c => c.2
  | none => unlistedByte

/-- Put a cell in front of the first cell of a higher address. -/
def Memory.insert (c : Host.Cell) : Memory → Memory
  | [] => [c]
  | d :: m => if c.1 < d.1 then c :: d :: m else d :: Memory.insert c m

/-- MemWrite(i, 1, v) of R9: the byte at index a becomes v, every other byte stays. -/
def Memory.write (m : Memory) (a : Nat) (v : Byte) : Memory :=
  if v = unlistedByte then m.filter (fun c => c.1 != a)
  else Memory.insert (a, v) (m.filter (fun c => c.1 != a))

/-- The 24 bytes f 0 .. f 23 as cells. -/
def Memory.ofBytes (f : Nat → Byte) : Memory :=
  ((List.range 24).map fun i => (i, f i)).filter (fun c => c.2 != unlistedByte)

/-- The canonical form: addresses strictly rising, all in 0..23 (R30), no entry equal to what an unlisted cell reads
as. -/
def Memory.wf (m : Memory) : Bool :=
  decide (m.Pairwise fun c d => c.1 < d.1) && m.all (fun c => decide (c.1 < 24) && c.2 != unlistedByte)

/-- All 24 bytes of the buffer, byte 0 first (R37 (c)). -/
def Memory.frame (m : Memory) : Frame := Vector.ofFn fun i : Fin 24 => m.read i

/-- frame_data (R34): byte i of the frame at bits 191 - 8*i .. 184 - 8*i. -/
def frameBits (f : Frame) : BitVec 192 :=
  f.toList.foldl (fun acc b => acc <<< 8 ||| b.setWidth 192) 0

/-- The frame whose frame_data is w (R34). -/
def frameOfBits (w : BitVec 192) : Frame :=
  Vector.ofFn fun i : Fin 24 => w.extractLsb' (184 - 8 * i.val) 8

/-- buf[i] <- x. -/
def State.storeByte (s : State) (i : Nat) (x : Byte) : State := { s with buf := s.buf.write i x }

/-- cur <- c. -/
def State.goto (s : State) (c : Cursor) : State := { s with cur := c }

/-- frame_q <- f, all 24 bytes at once (R12, R38). -/
def State.loadFrame (s : State) (f : Frame) : State := { s with frameQ := f }

/-- buf and frame_q become unspecified (R115): each of their 48 bytes is a fresh free byte (log 5). -/
def State.scramble (s : State) : State :=
  { s with
    buf := Memory.ofBytes fun i => Config.freeByte (s.draws + i)
    frameQ := Vector.ofFn fun i : Fin 24 => Config.freeByte (s.draws + 24 + i)
    draws := s.draws + 48 }

/-- Reading a decoder output (R13): the reader gets what the held frame gives, and a read before any frame faults. -/
def State.readPorts (s : State) (read : Frame → Lanes) : Host.Outcome State Fault Refusal :=
  if s.frameHeld then .next { s with sampled := read s.frameQ } else .fault .readBeforeFrame

end Sys2Proof.Machine
end

