-- ==== Sys2Proof/Machine/Control.lean ====
section
/-! DEFINITION. The meanings of the control operations: IDLE (40_synchronizer.md R65) and RESET (70_reset_and_hazards.md
R115). -/

namespace Sys2Proof.Machine

/-- IDLE (R65): nothing changes but frame_valid <- 0. -/
def execIdle (s : State) : Host.Outcome State Fault Refusal := .next s.strobeLow

/-- RESET (R115): cur, frame_held, frame_valid <- 0; buf and frame_q unspecified; no byte is accepted, whatever in_valid
is. -/
def execReset (_inValid : Bool) (s : State) : Host.Outcome State Fault Refusal :=
  .next (s.scramble.goto 0).clearFlags

end Sys2Proof.Machine
end

