-- ==== Sys2Proof/Machine/Operands.lean ====
section
/-! DEFINITION. The decoder's primitives (41_decoder.md R80 to R82; 30_encoding.md R49, R50, R54) and the IEEE 754
encoding they use (93_implementation_defined.md G1). -/

namespace Sys2Proof.Machine

/-- INT_MULT (R6, R7). -/
def intMult : Nat := 255

/-- FIX_MULT (R6, R7). -/
def fixMult : Nat := 256

/-- FIX_DIV (R6). -/
def fixDiv : Nat := 10

/-- W255(hi, lo) (R80), in ℕ. -/
def w255 (hi lo : Byte) : Nat := hi.toNat * intMult + lo.toNat

/-- W256(hi, lo) (R81), in ℕ. -/
def w256 (hi lo : Byte) : Nat := hi.toNat * fixMult + lo.toNat

/-- SCALE10(raw) (R82): the exact quotient. -/
def scale10 (raw : BitVec 16) : Rat := (raw.toNat : Rat) / (fixDiv : Rat)

/-- The number of fraction bits of a format (G1). -/
def fracBits : FloatFmt → Nat
  | .binary32 => 23
  | .binary64 => 52

/-- The exponent bias of a format (G1). -/
def expBias : FloatFmt → Nat
  | .binary32 => 127
  | .binary64 => 1023

/-- The number of bits of a format (G1). -/
def floatWidth : FloatFmt → Nat
  | .binary32 => 32
  | .binary64 => 64

/-- The quotient a / b rounded to the nearest integer, ties to even. -/
def roundNearestEven (a b : Nat) : Nat :=
  let q := a / b
  let r := a % b
  if 2 * r < b then q else if b < 2 * r then q + 1 else q + q % 2

/-- The binade of a quotient num / den of at least 2^(-4), counted from 2^(-4). -/
def binade (num den : Nat) : Nat := Nat.log2 (num * 2 ^ 4 / den)

/-- enc_F(RNE_F(num / den)) (R9, G1; log 10), for a quotient that is 0 or at least 2^(-4) and below overflow; SCALE10's
are 0 or in 0.1 .. 6553.5 (G1). The significand is rounded in units of the last place of the quotient's binade; adding it
whole carries its leading bit (and a rounding up to the next power of two) into the exponent field. -/
def encodeRounded (f : FloatFmt) (num den : Nat) : Nat :=
  if num = 0 then 0
  else
    let e := binade num den
    (e + expBias f - 5) * 2 ^ fracBits f + roundNearestEven (num * 2 ^ (fracBits f + 4)) (den * 2 ^ e)

/-- The value of the encoding {s, e, f} of a finite number with sign 0 (G1): e = 0 is zero or subnormal. -/
def floatValue (f : FloatFmt) (bits : Nat) : Rat :=
  let e := bits / 2 ^ fracBits f
  let m := bits % 2 ^ fracBits f
  if e = 0 then (m : Rat) * 2 ^ (1 - (expBias f : Int) - fracBits f)
  else ((2 ^ fracBits f + m : Nat) : Rat) * 2 ^ ((e : Int) - expBias f - fracBits f)

/-- The port value of SCALE10_F(raw) (R50, R82). -/
def scale10Lane (f : FloatFmt) (raw : BitVec 16) : FloatLane :=
  match f with
  | .binary32 => .binary32 (BitVec.ofNat 32 (encodeRounded .binary32 raw.toNat fixDiv))
  | .binary64 => .binary64 (BitVec.ofNat 64 (encodeRounded .binary64 raw.toNat fixDiv))

/-- zext_INT_OUT_WIDTH(v) (R49). -/
def intLane (w : IntWidth) (v : Nat) : IntLane :=
  match w with
  | .w16 => .w16 (BitVec.ofNat 16 v)
  | .w32 => .w32 (BitVec.ofNat 32 v)

/-- The number an integer lane carries. -/
def IntLane.toNat : IntLane → Nat
  | .w16 v => v.toNat
  | .w32 v => v.toNat

/-- The bits a floating-point lane carries. -/
def FloatLane.toNat : FloatLane → Nat
  | .binary32 v => v.toNat
  | .binary64 v => v.toNat

end Sys2Proof.Machine
end

