-- ==== Sys2Proof/Machine/Decoder.lean ====
section
/-! DEFINITION. The word decoder as a whole: the frame map (20_memory.md R39), DecodeFields and the Record (41_decoder.md
R91, R92), and the output ports (30_encoding.md R45, R48). -/

namespace Sys2Proof.Machine

/-- The raw fields of a frame (R91); each fits 16 bits (R96). -/
structure Fields where
  pm25 : BitVec 16
  tvoc : BitVec 16
  hcho : BitVec 16
  co2 : BitVec 16
  tempX10 : BitVec 16
  humX10 : BitVec 16
  deriving DecidableEq, Repr

/-- pm25 = W255(b[4], b[5]) (R83). -/
def pm25Of (b : Frame) : Nat := w255 b[4] b[5]

/-- tvoc = W255(b[6], b[7]) (R84). -/
def tvocOf (b : Frame) : Nat := w255 b[6] b[7]

/-- hcho = W255(b[9], b[10]) (R85). -/
def hchoOf (b : Frame) : Nat := w255 b[9] b[10]

/-- co2 = W255(b[12], b[13]) (R86). -/
def co2Of (b : Frame) : Nat := w255 b[12] b[13]

/-- temp_x10 = W256(b[14], b[15]) (R87). -/
def tempX10Of (b : Frame) : Nat := w256 b[14] b[15]

/-- hum_x10 = W256(b[16], b[17]) (R88). -/
def humX10Of (b : Frame) : Nat := w256 b[16] b[17]

/-- DecodeFields(b) (R91). -/
def decodeFields (b : Frame) : Fields where
  pm25 := BitVec.ofNat 16 (pm25Of b)
  tvoc := BitVec.ofNat 16 (tvocOf b)
  hcho := BitVec.ofNat 16 (hchoOf b)
  co2 := BitVec.ofNat 16 (co2Of b)
  tempX10 := BitVec.ofNat 16 (tempX10Of b)
  humX10 := BitVec.ofNat 16 (humX10Of b)

/-- What the decoder drives on its ports for the frame b (R48, R49, R50). -/
def lanesOf (cfg : Config) (b : Frame) : Lanes where
  pm25 := intLane cfg.intOutWidth (pm25Of b)
  tvoc := intLane cfg.intOutWidth (tvocOf b)
  hcho := intLane cfg.intOutWidth (hchoOf b)
  co2 := intLane cfg.intOutWidth (co2Of b)
  tempX10 := BitVec.ofNat 16 (tempX10Of b)
  humX10 := BitVec.ofNat 16 (humX10Of b)
  tempF := scale10Lane cfg.floatFmt (BitVec.ofNat 16 (tempX10Of b))
  humF := scale10Lane cfg.floatFmt (BitVec.ofNat 16 (humX10Of b))

/-- The Record the host forms (R92); τ is the host's type of timestamps. -/
structure Record (τ : Type) where
  capturedAt : τ
  pm25 : BitVec 16
  tvoc : BitVec 16
  hcho : BitVec 16
  co2 : BitVec 16
  temperature : FloatLane
  humidity : FloatLane
  deriving DecidableEq, Repr

/-- Record(f, now) (R92): now is the host's free draw (93 I9; log 15). -/
def formRecord {τ : Type} (cfg : Config) (f : Frame) (now : τ) : Record τ :=
  let d := decodeFields f
  { capturedAt := now
    pm25 := d.pm25
    tvoc := d.tvoc
    hcho := d.hcho
    co2 := d.co2
    temperature := scale10Lane cfg.floatFmt d.tempX10
    humidity := scale10Lane cfg.floatFmt d.humX10 }

/-- frame_data and the decoder's outputs. -/
structure FramePorts where
  frameData : BitVec 192
  lanes : Lanes
  deriving DecidableEq, Repr

/-- The output ports (R45). The ports that show a frame are none while frame_held = 0: they are unspecified then and may
not be read (R13, R48; log 19). -/
structure OutPorts where
  frameValid : Bool
  frameHeld : Bool
  frame : Option FramePorts
  deriving DecidableEq, Repr

/-- The output ports in a state: two registers, and combinational functions of frame_q (R47, R48). -/
def State.ports (s : State) : OutPorts where
  frameValid := s.frameValid
  frameHeld := s.frameHeld
  frame := if s.frameHeld then some ⟨frameBits s.frameQ, lanesOf s.cfg s.frameQ⟩ else none

end Sys2Proof.Machine
end

