-- ==== Sys2Proof/Machine/Extract.lean ====
section
/-! DEFINITION. The meanings of the six decoder rows (41_decoder.md R83 to R88): a read of the field's ports. Each puts on
the reader's side what its ports carry, computed from frame_q, and changes nothing in the block (20_memory.md R38 (c));
before the first frame it faults (10_state.md R13). -/

namespace Sys2Proof.Machine

/-- EXT_PM25 (R83): port pm25. -/
def execExtPm25 (s : State) : Host.Outcome State Fault Refusal :=
  s.readPorts fun b => { s.sampled with pm25 := intLane s.cfg.intOutWidth (pm25Of b) }

/-- EXT_TVOC (R84): port tvoc. -/
def execExtTvoc (s : State) : Host.Outcome State Fault Refusal :=
  s.readPorts fun b => { s.sampled with tvoc := intLane s.cfg.intOutWidth (tvocOf b) }

/-- EXT_HCHO (R85): port hcho. -/
def execExtHcho (s : State) : Host.Outcome State Fault Refusal :=
  s.readPorts fun b => { s.sampled with hcho := intLane s.cfg.intOutWidth (hchoOf b) }

/-- EXT_CO2 (R86): port co2. -/
def execExtCo2 (s : State) : Host.Outcome State Fault Refusal :=
  s.readPorts fun b => { s.sampled with co2 := intLane s.cfg.intOutWidth (co2Of b) }

/-- EXT_TEMP (R87): ports temp_x10 and temp_f. -/
def execExtTemp (s : State) : Host.Outcome State Fault Refusal :=
  s.readPorts fun b =>
    let raw := BitVec.ofNat 16 (tempX10Of b)
    { s.sampled with tempX10 := raw, tempF := scale10Lane s.cfg.floatFmt raw }

/-- EXT_HUM (R88): ports hum_x10 and hum_f. -/
def execExtHum (s : State) : Host.Outcome State Fault Refusal :=
  s.readPorts fun b =>
    let raw := BitVec.ofNat 16 (humX10Of b)
    { s.sampled with humX10 := raw, humF := scale10Lane s.cfg.floatFmt raw }

end Sys2Proof.Machine
end

