-- ==== Sys2Proof/Machine/Sync.lean ====
section
/-! DEFINITION. The meanings of the synchronizer's key operations (40_synchronizer.md R59 to R64, R66, R67), at the
clocked level (R77). Each is the effect column of the transition map R53; the key's own cursor bits are the cursor the
row applies to (log 8). -/

namespace Sys2Proof.Machine

/-- A transition that stores nothing and emits nothing. -/
def State.skipTo (s : State) (c : Cursor) : Host.Outcome State Fault Refusal :=
  .next (s.goto c).strobeLow

/-- A transition that stores x at index i and emits nothing. -/
def State.storeTo (s : State) (i : Nat) (x : Byte) (c : Cursor) : Host.Outcome State Fault Refusal :=
  .next ((s.storeByte i x).goto c).strobeLow

/-- HDR1_ACCEPT (R61): buf[0] <- 0x42, cur <- 1. -/
def execHdr1Accept (s : State) : Host.Outcome State Fault Refusal := s.storeTo 0 hdr0 1

/-- SYNC_SKIP (R60): the byte is discarded, cur <- 0. -/
def execSyncSkip (_x : Byte) (s : State) : Host.Outcome State Fault Refusal := s.skipTo 0

/-- HDR2_ACCEPT (R62): buf[1] <- 0x4D, cur <- 2. -/
def execHdr2Accept (s : State) : Host.Outcome State Fault Refusal := s.storeTo 1 hdr1 2

/-- HDR2_RETEST (R59): buf[0] <- 0x42, cur <- 1. -/
def execHdr2Retest (s : State) : Host.Outcome State Fault Refusal := s.storeTo 0 hdr0 1

/-- HDR2_REJECT (R63): the byte is discarded, cur <- 0. -/
def execHdr2Reject (_x : Byte) (s : State) : Host.Outcome State Fault Refusal := s.skipTo 0

/-- BODY_STORE (R64): buf[c] <- x, cur <- c + 1, for c in 2..22. -/
def execBodyStore (c : Cursor) (x : Byte) (s : State) : Host.Outcome State Fault Refusal :=
  if 2 ≤ c.toNat ∧ c.toNat ≤ 22 then s.storeTo c.toNat x (c + 1) else .fault .keyOutsideRow

/-- LAST_STORE_EMIT (R66): buf[23] <- x; the whole buffer goes to frame_q; cur <- 0; frame_held, frame_valid <- 1. -/
def execLastStoreEmit (x : Byte) (s : State) : Host.Outcome State Fault Refusal :=
  let stored := s.storeByte 23 x
  .next ((stored.loadFrame stored.buf.frame).goto 0).strobeHigh

/-- CUR_ILLEGAL (R67): no store, no emission, cur <- 0. -/
def execCurIllegal (_c : Cursor) (_x : Byte) (s : State) : Host.Outcome State Fault Refusal := s.skipTo 0

end Sys2Proof.Machine
end

