-- ==== Sys2Proof/Machine/Dispatch.lean ====
section
/-! DEFINITION. One arm per operation, each one call of its meaning. -/

namespace Sys2Proof.Machine

def exec (i : Instr) (s : State) : Host.Outcome State Fault Refusal :=
  match i with
  | .hdr1Accept => Sys2Proof.Machine.execHdr1Accept s
  | .syncSkip x => Sys2Proof.Machine.execSyncSkip x s
  | .hdr2Accept => Sys2Proof.Machine.execHdr2Accept s
  | .hdr2Retest => Sys2Proof.Machine.execHdr2Retest s
  | .hdr2Reject x => Sys2Proof.Machine.execHdr2Reject x s
  | .bodyStore c x => Sys2Proof.Machine.execBodyStore c x s
  | .lastStoreEmit x => Sys2Proof.Machine.execLastStoreEmit x s
  | .curIllegal c x => Sys2Proof.Machine.execCurIllegal c x s
  | .idle => Sys2Proof.Machine.execIdle s
  | .reset inValid => Sys2Proof.Machine.execReset inValid s
  | .extPm25 => Sys2Proof.Machine.execExtPm25 s
  | .extTvoc => Sys2Proof.Machine.execExtTvoc s
  | .extHcho => Sys2Proof.Machine.execExtHcho s
  | .extCo2 => Sys2Proof.Machine.execExtCo2 s
  | .extTemp => Sys2Proof.Machine.execExtTemp s
  | .extHum => Sys2Proof.Machine.execExtHum s

end Sys2Proof.Machine
end

