-- ==== Sys2Proof/Machine/Fetch.lean ====
section
/-! DEFINITION. What selects the operation of the next step (30_encoding.md R46, R51, R53; 60_exceptions.md R103), and the
placing of a table word where the next step takes it (log 7). -/

namespace Sys2Proof.Machine

/-- The selection for one stimulus: rst first, then no byte, then the key {cur, in_byte} (R53, R77, R103). -/
def select (cur : Cursor) : Stimulus → Selector
  | .edge rst inValid inByte =>
    if rst then .ctrl (if inValid then 3 else 2)
    else if inValid then .key (keyOf cur inByte)
    else .ctrl 0
  | .sample f => .field f

/-- What the next step sees: the first pending stimulus, or an edge at which no byte is offered (log 1). -/
def State.stimulus (s : State) : Stimulus := s.pending.headD (.edge false false 0)

/-- The selector of the next step. -/
def State.selector (s : State) : Selector := select s.cur s.stimulus

/-- The state with its first stimulus taken: an accepted byte is never seen again (R38 (d)). -/
def State.consume (s : State) : State := { s with pending := s.pending.tail }

/-- s with a stimulus in front of the pending ones. -/
def State.offer (s : State) (e : List Stimulus) : State := { s with pending := e ++ s.pending }

/-- s with a word of the opcode table placed where the next step takes it (log 7).
One byte C: the pins rst and in_valid carry it. Two bytes K: cur is K[12:8] and the byte K[7:0] is offered; the key 0x0142
is the key of HDR2_RETEST, a row of the builds with RESYNC_RETEST only, so it selects such a build. A frame: it is the
held frame, and the ports of all six fields are read in the table's order. -/
def State.placeWord (s : State) (nbits w : Nat) : State :=
  if nbits = 8 then
    s.offer [.edge (w.testBit 1) (w.testBit 0) 0]
  else if nbits = 16 then
    let k : Key := BitVec.ofNat 13 w
    { s with
      cur := keyCur k
      cfg := if k = 0x0142 then { s.cfg with resyncRetest := true } else s.cfg
      pending := .edge false true (keyByte k) :: s.pending }
  else
    { s with
      frameQ := frameOfBits (BitVec.ofNat 192 w)
      frameHeld := true
      pending := allFields.map .sample ++ s.pending }

end Sys2Proof.Machine
end

