-- ==== Sys2Proof/Machine/Step.lean ====
section
/-! DEFINITION. One step: the next stimulus is taken, the decoder reads the operation it selects, and that operation runs
(40_synchronizer.md R77; 60_exceptions.md R103). -/

namespace Sys2Proof.Machine

/-- One step. -/
def step (s : State) : Host.Outcome State Fault Refusal :=
  match decode s.cfg s.selector with
  | .ok i => exec i s.consume
  | .error _ => .refused .noOperation

/-- s with a word of the opcode table placed where step takes its next operation (log 7). -/
def State.withFetchWord (s : State) (nbits w : Nat) : State := s.placeWord nbits w

end Sys2Proof.Machine
end

