-- ==== Sys2Proof/Machine/Feed.lean ====
section
/-! DEFINITION. The transaction level (00_scope.md R8): Feed (40_synchronizer.md R70) and streams (R71), written from
those rules and independent of exec. -/

namespace Sys2Proof.Machine

/-- The synchronizer's state at the transaction level (R70). -/
structure SyncState where
  cur : Cursor
  buf : Memory
  deriving DecidableEq, Repr

/-- Feed (R70); a cursor in 24..31, which R70 does not admit, follows R67. -/
def feed (cfg : Config) (q : SyncState) (x : Byte) : SyncState × Option Frame :=
  if q.cur = 0 then
    if x = hdr0 then (⟨1, q.buf.write 0 x⟩, none) else (⟨0, q.buf⟩, none)
  else if q.cur = 1 then
    if x = hdr1 then (⟨2, q.buf.write 1 x⟩, none)
    else if cfg.resyncRetest = true ∧ x = hdr0 then (⟨1, q.buf.write 0 x⟩, none)
    else (⟨0, q.buf⟩, none)
  else if q.cur.toNat ≤ 22 then (⟨q.cur + 1, q.buf.write q.cur.toNat x⟩, none)
  else if q.cur = 23 then (⟨0, q.buf.write 23 x⟩, some (q.buf.write 23 x).frame)
  else (⟨0, q.buf⟩, none)

/-- A stream fed from q (R71): the state after the last byte, and the output of every byte in order. -/
def feedStream (cfg : Config) (q : SyncState) : List Byte → SyncState × List (Option Frame)
  | [] => (q, [])
  | x :: xs =>
    let r := feed cfg q x
    let rest := feedStream cfg r.1 xs
    (rest.1, r.2 :: rest.2)

/-- The synchronizer's part of a state. -/
def State.sync (s : State) : SyncState := ⟨s.cur, s.buf⟩

end Sys2Proof.Machine
end

