-- ==== Sys2Proof/Safety.lean ====
section
/-! DEFINITION. What counts as a safe run, in the terms the statements use: the invariant of 10_state.md R17, R18, the
host's duty of 60_exceptions.md R113 about reads, runs over pending stimuli, and the frames a run emits. -/

namespace Sys2Proof.Machine

/-- R17: cur is in 0..23. -/
abbrev State.cursorInRange (s : State) : Prop := s.cur.toNat ≤ 23

/-- R18: the confirmed header bytes stand in the buffer. -/
abbrev State.headerStored (s : State) : Prop :=
  (1 ≤ s.cur.toNat → s.buf.read 0 = hdr0) ∧ (2 ≤ s.cur.toNat → s.buf.read 1 = hdr1)

/-- R18: a held frame begins with the header. -/
abbrev State.heldHeader (s : State) : Prop :=
  s.frameHeld = true → s.frameQ[0] = hdr0 ∧ s.frameQ[1] = hdr1

/-- The invariant: R17, R18, the strobe only with a held frame (R13, R14, R66), the buffer in canonical form. -/
abbrev State.Inv (s : State) : Prop :=
  s.cursorInRange ∧ s.headerStored ∧ s.heldHeader ∧ (s.frameValid = true → s.frameHeld = true) ∧
    s.buf.wf = true

/-- The host's duty (R113, R120): the next stimulus is not a read of a decoder output while frame_held = 0. -/
def State.admitted (s : State) : Bool :=
  match s.stimulus with
  | .edge _ _ _ => true
  | .sample _ => s.frameHeld

/-- The clock edge with rst = 0 at which in_valid and in_byte carry e (R46): an idle edge, whatever in_byte is, if
in_valid = 0. -/
def slot (e : Bool × Byte) : Stimulus := .edge false e.1 e.2

/-- The bytes accepted at such edges, in order (R46): in_byte has no part in an idle edge (R65). -/
def accepted (slots : List (Bool × Byte)) : List Byte :=
  slots.filterMap fun e => if e.1 then some e.2 else none

/-- The bytes stored of the frame in progress: buf[0 .. cur-1] (R11, R19). -/
def State.partialFrame (s : State) : List Byte := (List.range s.cur.toNat).map s.buf.read

/-- The bytes accepted since the last reset, after the next step, if they were h before it (R46, R115). -/
def State.historyAfter (s : State) (h : List Byte) : List Byte :=
  match s.stimulus with
  | .edge true _ _ => []
  | .edge false true x => h ++ [x]
  | .edge false false _ => h
  | .sample _ => h

/-- The frame that a step from s to t emits: a clock edge after which frame_valid is 1 (R14, R66). -/
def emitted (s t : State) : Option Frame :=
  match s.stimulus with
  | .edge _ _ _ => if t.frameValid then some t.frameQ else none
  | .sample _ => none

/-- The frames emitted by the next k steps, in order; a run that stops emits no more. -/
def emissions : Nat → State → List Frame
  | 0, _ => []
  | k + 1, s =>
    match step s with
    | .next t => (emitted s t).toList ++ emissions k t
    | _ => []

end Sys2Proof.Machine
end

