-- ==== Sys2Proof/Certificates/Slice0/Obligations.lean ====
section
/-! DEFINITION. The statements for the provers, from the numbered rules of spec/. -/

open Sys2Proof Sys2Proof.Machine

/-! ## Reset, invariant, reachability -/

/-- R20: the values the spec gives for reset; frame_data and the decoder outputs are not observable then. -/
def Obligations.ResetStateHasTheSpecsValues : Prop :=
  State.reset.cur = 0 ∧ State.reset.frameHeld = false ∧ State.reset.frameValid = false ∧
    State.reset.ports.frame = none

/-- The invariant of Safety.lean holds at reset. Its clause on the buffer's canonical form is about the model's own
representation (log 17). -/
def Obligations.ResetStateMeetsTheInvariant : Prop := State.reset.Inv

/-- R17, R18 and the model's canonical form (log 17) as one invariant that every step keeps, from every state that meets
it. -/
def Obligations.EveryStepKeepsTheInvariant : Prop :=
  ∀ s t : State, s.Inv → step s = .next t → t.Inv

/-- R17, R18: in every state reached from reset, in any build and under any stimuli, cur is in 0..23, the confirmed
header bytes stand in the buffer, and a held frame begins with 0x42 0x4D. -/
def Obligations.ReachableStatesHoldTheHeader : Prop :=
  ∀ (cfg : Config) (pending : List Stimulus) (k : Nat) (t : State),
    Host.Core.run Sys2Proof.core k { State.reset with cfg := cfg, pending := pending } = .next t →
    t.cur.toNat ≤ 23 ∧
    (1 ≤ t.cur.toNat → t.buf.read 0 = 0x42) ∧ (2 ≤ t.cur.toNat → t.buf.read 1 = 0x4D) ∧
    (t.frameHeld = true → t.frameQ[0] = 0x42 ∧ t.frameQ[1] = 0x4D)

/-! ## The synchronizer's operations -/

/-- R60, with its corner case of a stream that never holds 0x42. -/
def Obligations.SyncSkipDiscardsTheByte : Prop :=
  ∀ (s : State) (x : Byte), s.cur = 0 → x ≠ 0x42 →
    exec (.syncSkip x) s = .next { s with cur := 0, frameValid := false } ∧
    decode s.cfg (.key (keyOf s.cur x)) = .ok (.syncSkip x) ∧
    (∀ rest, s.pending = .edge false true x :: rest →
      step s = .next { s with pending := rest, cur := 0, frameValid := false }) ∧
    (∀ xs : List Byte, (∀ y ∈ xs, y ≠ 0x42) →
      feedStream s.cfg s.sync xs = (s.sync, List.replicate xs.length none))

/-- R61. -/
def Obligations.HeaderByteOneIsAccepted : Prop :=
  ∀ s : State, s.cur = 0 →
    exec .hdr1Accept s = .next { s with buf := s.buf.write 0 0x42, cur := 1, frameValid := false } ∧
    decode s.cfg (.key 0x0042) = .ok .hdr1Accept ∧ keyOf s.cur 0x42 = 0x0042 ∧
    (∀ rest, s.pending = .edge false true 0x42 :: rest →
      step s = .next
        { s with pending := rest, buf := s.buf.write 0 0x42, cur := 1, frameValid := false })

/-- R62, with its corner case: the frame is committed, the next 22 bytes complete it whatever they are. -/
def Obligations.HeaderByteTwoIsAccepted : Prop :=
  ∀ s : State, s.cur = 1 →
    exec .hdr2Accept s = .next { s with buf := s.buf.write 1 0x4D, cur := 2, frameValid := false } ∧
    decode s.cfg (.key 0x014D) = .ok .hdr2Accept ∧ keyOf s.cur 0x4D = 0x014D ∧
    (∀ rest, s.pending = .edge false true 0x4D :: rest →
      step s = .next
        { s with pending := rest, buf := s.buf.write 1 0x4D, cur := 2, frameValid := false }) ∧
    (∀ body : List Byte, body.length = 22 →
      ∃ f : Frame, (feedStream s.cfg s.sync (0x4D :: body)).2 = List.replicate 22 none ++ [some f] ∧
        f.toList.drop 2 = body)

/-- R63, with its corner case: after 42 42 4D in state 0 the block is in state 0 again, and buf[0] keeps its 0x42. -/
def Obligations.FailedHeaderIsAbandoned : Prop :=
  ∀ (s : State) (x : Byte), s.cur = 1 → x ≠ 0x4D → (s.cfg.resyncRetest = true → x ≠ 0x42) →
    exec (.hdr2Reject x) s = .next { s with cur := 0, frameValid := false } ∧
    decode s.cfg (.key (keyOf s.cur x)) = .ok (.hdr2Reject x) ∧
    (∀ rest, s.pending = .edge false true x :: rest →
      step s = .next { s with pending := rest, cur := 0, frameValid := false }) ∧
    (s.cfg.resyncRetest = false → ∀ m : Memory,
      feedStream s.cfg ⟨0, m⟩ [0x42, 0x42, 0x4D] = (⟨0, m.write 0 0x42⟩, [none, none, none]))

/-- R59: the reading with RESYNC_RETEST = true; with false the key 0x0142 is HDR2_REJECT's. -/
def Obligations.RetestedHeaderByteStartsAgain : Prop :=
  ∀ s : State, s.cur = 1 →
    (s.cfg.resyncRetest = true →
      exec .hdr2Retest s = .next { s with buf := s.buf.write 0 0x42, cur := 1, frameValid := false } ∧
      decode s.cfg (.key 0x0142) = .ok .hdr2Retest ∧ keyOf s.cur 0x42 = 0x0142 ∧
      (∀ rest, s.pending = .edge false true 0x42 :: rest →
        step s = .next
          { s with pending := rest, buf := s.buf.write 0 0x42, cur := 1, frameValid := false }) ∧
      (∀ (m : Memory) (body : List Byte), body.length = 22 →
        ∃ f : Frame, f.toList = 0x42 :: 0x4D :: body ∧
          (feedStream s.cfg ⟨0, m⟩ (0x42 :: 0x42 :: 0x4D :: body)).2 = List.replicate 24 none ++ [some f])) ∧
    (s.cfg.resyncRetest = false → decode s.cfg (.key 0x0142) = .ok (.hdr2Reject 0x42))

/-- R64: every byte value, every c in 2..22. -/
def Obligations.BodyByteIsStored : Prop :=
  ∀ (s : State) (x : Byte), 2 ≤ s.cur.toNat → s.cur.toNat ≤ 22 →
    exec (.bodyStore s.cur x) s =
      .next { s with buf := s.buf.write s.cur.toNat x, cur := s.cur + 1, frameValid := false } ∧
    (s.cur + 1).toNat = s.cur.toNat + 1 ∧
    decode s.cfg (.key (keyOf s.cur x)) = .ok (.bodyStore s.cur x) ∧
    (∀ rest, s.pending = .edge false true x :: rest →
      step s = .next
        { s with pending := rest, buf := s.buf.write s.cur.toNat x, cur := s.cur + 1, frameValid := false })

/-- A BODY_STORE term that is no key of its row stops; that it stops, and how, is the model's choice (log 16). -/
def Obligations.BodyStoreOutsideItsRowStops : Prop :=
  ∀ (s : State) (c : Cursor) (x : Byte), c.toNat < 2 ∨ 22 < c.toNat →
    exec (.bodyStore c x) s = .fault .keyOutsideRow ∧ (∀ cfg : Config, (Instr.bodyStore c x).wf cfg = false) ∧
    ∀ (cfg : Config) (sel : Selector), decode cfg sel ≠ .ok (.bodyStore c x)

/-- R65, R21: an edge with no byte, whatever in_byte is, changes frame_valid only, in any state and any number of times. -/
def Obligations.IdleHoldsTheState : Prop :=
  ∀ s : State,
    exec .idle s = .next { s with frameValid := false } ∧
    (∀ x rest, s.pending = .edge false false x :: rest →
      step s = .next { s with pending := rest, frameValid := false }) ∧
    (∀ (x : Byte) (xs : List Byte) (rest : List Stimulus),
      s.pending = (x :: xs).map (.edge false false ·) ++ rest →
      Host.Core.run Sys2Proof.core (xs.length + 1) s = .next { s with pending := rest, frameValid := false })

/-- R66: f is buf with f[23] = x; everything R66 writes, and nothing else, changes; under R18 the frame begins with the
header. -/
def Obligations.LastByteEmitsTheFrame : Prop :=
  ∀ (s : State) (x : Byte), s.cur = 23 →
    ∃ f : Frame, (∀ (i : Nat) (h : i < 24), f[i] = if i = 23 then x else s.buf.read i) ∧
      exec (.lastStoreEmit x) s =
        .next { s with
          buf := s.buf.write 23 x, cur := 0, frameQ := f, frameHeld := true, frameValid := true } ∧
      decode s.cfg (.key (keyOf s.cur x)) = .ok (.lastStoreEmit x) ∧
      (∀ rest, s.pending = .edge false true x :: rest →
        step s = .next { s with
          pending := rest, buf := s.buf.write 23 x, cur := 0, frameQ := f, frameHeld := true,
          frameValid := true }) ∧
      (s.headerStored → f[0] = 0x42 ∧ f[1] = 0x4D)

/-- R67: a cursor in 24..31 goes to 0, stores nothing, emits nothing; the byte is not tested. -/
def Obligations.IllegalCursorReturnsToZero : Prop :=
  ∀ (s : State) (x : Byte), 24 ≤ s.cur.toNat →
    exec (.curIllegal s.cur x) s = .next { s with cur := 0, frameValid := false } ∧
    decode s.cfg (.key (keyOf s.cur x)) = .ok (.curIllegal s.cur x) ∧
    (∀ rest, s.pending = .edge false true x :: rest →
      step s = .next { s with pending := rest, cur := 0, frameValid := false })

/-- R115: whatever in_valid and in_byte are. What buf and frame_q hold after it is left open: free values (log 5). -/
def Obligations.ResetEdgeClearsTheBlock : Prop :=
  ∀ (s : State) (v : Bool),
    ∃ (m : Memory) (f : Frame) (d : Nat),
      exec (.reset v) s = .next { s with
        cur := 0, frameHeld := false, frameValid := false, buf := m, frameQ := f, draws := d } ∧
      (∀ x rest, s.pending = .edge true v x :: rest →
        step s = .next { s with
          pending := rest, cur := 0, frameHeld := false, frameValid := false, buf := m, frameQ := f,
          draws := d })

/-- R116, R117: after a reset edge no frame is readable, a byte offered at the next edge is processed in state 0, and
every frame emitted later is made of bytes accepted after the reset, whatever idle edges stand between. -/
def Obligations.ResetAbandonsThePartialFrame : Prop :=
  ∀ (s : State) (v : Bool) (y : Byte) (slots : List (Bool × Byte)) (rest : List Stimulus),
    s.pending = .edge true v y :: slots.map slot ++ rest →
    (∃ t, step s = .next t ∧ t.cur = 0 ∧ t.ports.frame = none ∧
      (∀ e slots', slots = e :: slots' → ∃ u, step t = .next u ∧ u.cur = if e = (true, 0x42) then 1 else 0)) ∧
    (∀ f ∈ emissions (slots.length + 1) s, f.toList <:+: accepted slots)

/-! ## The clocked step -/

/-- R77, with Feed of R70: the three branches of the clocked step. -/
def Obligations.ClockedStepFollowsFeed : Prop :=
  ∀ (s : State) (rest : List Stimulus) (x : Byte),
    (∀ v, s.pending = .edge true v x :: rest →
      ∃ (m : Memory) (f : Frame) (d : Nat), step s = .next { s with
        pending := rest, cur := 0, frameHeld := false, frameValid := false, buf := m, frameQ := f, draws := d }) ∧
    (s.pending = .edge false true x :: rest →
      step s = match feed s.cfg s.sync x with
        | (q, some f) => .next { s with
            pending := rest, cur := q.cur, buf := q.buf, frameQ := f, frameHeld := true, frameValid := true }
        | (q, none) => .next { s with pending := rest, cur := q.cur, buf := q.buf, frameValid := false }) ∧
    (s.pending = .edge false false x :: rest →
      step s = .next { s with pending := rest, frameValid := false })

/-- A step runs the decoded operation on the state whose first stimulus is taken; what is selected is R53's: reset, no
byte, the key, or (log 2) the field that is read. -/
def Obligations.StepRunsTheDecodedOperation : Prop :=
  ∀ s : State,
    (∀ i, decode s.cfg s.selector = .ok i → step s = exec i { s with pending := s.pending.tail }) ∧
    (∀ e rest, s.pending = e :: rest → s.selector = match e with
      | .edge true inValid _ => .ctrl (if inValid then 3 else 2)
      | .edge false true x => .key (keyOf s.cur x)
      | .edge false false _ => .ctrl 0
      | .sample f => .field f)

/-- R100: no admitted input faults or is refused; the only failure is a read of a decoder output before any frame. -/
def Obligations.OnlyAReadBeforeAnyFrameFails : Prop :=
  ∀ (s : State) (e : Stimulus) (rest : List Stimulus), s.pending = e :: rest →
    (s.admitted = true → ∃ t, step s = .next t) ∧
    (s.admitted = false → step s = .fault .readBeforeFrame) ∧
    (s.admitted = false ↔ s.frameHeld = false ∧ ∃ f, e = .sample f)

/-- R13: how frame_held moves, and that a decoder output cannot be read while it is 0. -/
def Obligations.FrameHeldIsSetByEmissionAndClearedByReset : Prop :=
  (∀ (s t : State) (e : Stimulus) (rest : List Stimulus), s.pending = e :: rest → step s = .next t →
    (t.frameHeld = true ↔
      (∃ x, e = .edge false true x ∧ s.cur = 23) ∨ (s.frameHeld = true ∧ ¬∃ v x, e = .edge true v x))) ∧
  (∀ s : State, s.frameHeld = false →
    s.ports.frame = none ∧ ∀ f : Field, exec (decodeField f) s = .fault .readBeforeFrame)

/-- R14: after a clock edge frame_valid is 1 exactly if a byte was accepted in state 23 at that edge. -/
def Obligations.FrameValidFollowsAnEmissionOnly : Prop :=
  ∀ (s t : State) (rst inValid : Bool) (x : Byte) (rest : List Stimulus),
    s.pending = .edge rst inValid x :: rest → step s = .next t →
    (t.ports.frameValid = true ↔ rst = false ∧ inValid = true ∧ s.cur = 23)

/-- R12: frame_q changes at an emission, all 24 bytes at once, and (unspecified, R115) at a reset edge; else never. -/
def Obligations.FrameRegisterChangesOnlyAtEmission : Prop :=
  ∀ (s t : State) (e : Stimulus) (rest : List Stimulus), s.pending = e :: rest → step s = .next t →
    (∃ v x, e = .edge true v x) ∨
    (∃ x, e = .edge false true x ∧ s.cur = 23 ∧
      ∀ (i : Nat) (h : i < 24), t.frameQ[i] = if i = 23 then x else s.buf.read i) ∨
    t.frameQ = s.frameQ

/-- R19: two states that differ only in buffer cells at or above cur show the same ports and go on alike. -/
def Obligations.StaleBytesAreNeverShown : Prop :=
  ∀ (s : State) (m : Memory), (∀ i < s.cur.toNat, m.read i = s.buf.read i) →
    { s with buf := m }.ports = s.ports ∧
    ((∃ t n, step s = .next t ∧ step { s with buf := m } = .next { t with buf := n } ∧
      ∀ i < t.cur.toNat, n.read i = t.buf.read i) ∨
    (∃ f, step s = .fault f ∧ step { s with buf := m } = .fault f))

/-! ## Frames: what an operation leaves unchanged -/

/-- The cell an operation stores to: the index its meaning uses. -/
def storedCell : Instr → Option Nat
  | .hdr1Accept => some 0
  | .hdr2Accept => some 1
  | .hdr2Retest => some 0
  | .bodyStore c _ => some c.toNat
  | .lastStoreEmit _ => some 23
  | _ => none

/-- R11: apart from a reset edge, a byte of the buffer changes only in the cell the operation stores to. -/
def Obligations.OnlyTheStoredCellChanges : Prop :=
  ∀ (i : Instr) (s t : State), (∀ v, i ≠ .reset v) → exec i s = .next t →
    ∀ a, storedCell i ≠ some a → t.buf.read a = s.buf.read a

/-- The rows of the decoder. -/
def isExtractor (i : Instr) : Prop := ∃ f, i = decodeField f

/-- What each operation leaves alone among the registers, flags and the model's own fields. -/
def Obligations.OperationsKeepWhatTheyDoNotWrite : Prop :=
  ∀ (i : Instr) (s t : State), exec i s = .next t →
    t.cfg = s.cfg ∧ t.pending = s.pending ∧
    (¬isExtractor i → t.sampled = s.sampled) ∧
    (isExtractor i ∨ i = .idle → t.cur = s.cur) ∧
    ((∀ v, i ≠ .reset v) → t.draws = s.draws) ∧
    ((∀ v, i ≠ .reset v) → (∀ x, i ≠ .lastStoreEmit x) → t.frameQ = s.frameQ ∧ t.frameHeld = s.frameHeld) ∧
    (isExtractor i → t.frameValid = s.frameValid) ∧
    (¬isExtractor i → (∀ x, i ≠ .lastStoreEmit x) → t.frameValid = false)

/-- R38 (c): a read of a decoder output changes nothing but what the reader holds (State.sampled, log 2), and reading
again gives the same. -/
def Obligations.ReadsHaveNoSideEffect : Prop :=
  ∀ (f : Field) (s t : State), exec (decodeField f) s = .next t →
    t = { s with sampled := t.sampled } ∧ t.ports = s.ports ∧ exec (decodeField f) t = .next t

/-! ## Encoding -/

/-- Decode of encode is the operation, for every well-formed term and every build. -/
def Obligations.DecodeInvertsEncode : Prop :=
  ∀ (cfg : Config) (i : Instr), i.wf cfg = true → decode cfg (encode i) = .ok i

/-- What the decoder reads is well-formed, and encodes back to the same bits: no bit of a key or a control word is
dropped. -/
def Obligations.EncodeInvertsDecode : Prop :=
  ∀ (cfg : Config) (sel : Selector) (i : Instr), decode cfg sel = .ok i → i.wf cfg = true ∧ encode i = sel

/-- R53: every key selects the one present row that covers it and has the least priority number. -/
def Obligations.EachKeySelectsOneRowByPriority : Prop :=
  ∀ (cfg : Config) (k : Key), ∃ r ∈ keyRows, r.present cfg = true ∧ r.covers k = true ∧
    decodeKey cfg k = .ok (r.op.instr (keyCur k) (keyByte k)) ∧
    ∀ r' ∈ keyRows, r'.present cfg = true → r'.covers k = true → r' = r ∨ r.priority < r'.priority

/-- R69: which rule applies, by cursor and byte. -/
def Obligations.SelectionFollowsCursorAndByte : Prop :=
  ∀ (cfg : Config) (c : Cursor) (x : Byte), c.toNat ≤ 23 →
    decodeKey cfg (keyOf c x) = .ok (
      if c = 0 then (if x = 0x42 then .hdr1Accept else .syncSkip x)
      else if c = 1 then
        (if x = 0x4D then .hdr2Accept
         else if x = 0x42 ∧ cfg.resyncRetest = true then .hdr2Retest
         else .hdr2Reject x)
      else if c = 23 then .lastStoreEmit x
      else .bodyStore c x)

/-- Words written out from R53 and 95_test_vectors.md L2.1: T1, T2, T7, T8, T9, T14, T21, T22, T24, and the control
words. -/
def Obligations.SpecWordsDecode : Prop :=
  decode Config.default (.key 0x0042) = .ok .hdr1Accept ∧
  decode Config.default (.key 0x004D) = .ok (.syncSkip 0x4D) ∧
  decode Config.default (.key 0x014D) = .ok .hdr2Accept ∧
  decode Config.default (.key 0x0142) = .ok (.hdr2Reject 0x42) ∧
  decode Config.table (.key 0x0142) = .ok .hdr2Retest ∧
  decode Config.default (.key 0x0242) = .ok (.bodyStore 2 0x42) ∧
  decode Config.default (.key 0x164D) = .ok (.bodyStore 22 0x4D) ∧
  decode Config.default (.key 0x1700) = .ok (.lastStoreEmit 0x00) ∧
  decode Config.default (.key 0x1842) = .ok (.curIllegal 24 0x42) ∧
  decode Config.default (.ctrl 0) = .ok .idle ∧
  decode Config.default (.ctrl 2) = .ok (.reset false)

/-! ## The word decoder -/

/-- R80, R95: the value, its bound, the hardware form, and the pairs that collide. -/
def Obligations.IntegerExtractorMultipliesBy255 : Prop :=
  (∀ hi lo : Byte, w255 hi lo = hi.toNat * 255 + lo.toNat ∧ w255 hi lo ≤ 65280 ∧
    ((hi ++ (0 : Byte) : BitVec 16) - hi.setWidth 16 + lo.setWidth 16).toNat = w255 hi lo) ∧
  (∀ a : Byte, a.toNat ≤ 254 →
    w255 a 0xFF = 255 * (a.toNat + 1) ∧ w255 (a + 1) 0x00 = 255 * (a.toNat + 1))

/-- R96: the ranges, and that every integer value occurs. -/
def Obligations.DecodedRanges : Prop :=
  (∀ b : Frame,
    (decodeFields b).pm25.toNat ≤ 65280 ∧ (decodeFields b).tvoc.toNat ≤ 65280 ∧
    (decodeFields b).hcho.toNat ≤ 65280 ∧ (decodeFields b).co2.toNat ≤ 65280) ∧
  (∀ v ≤ 65280, ∃ hi lo : Byte, w255 hi lo = v) ∧
  (∀ raw : BitVec 16, 0 ≤ scale10 raw ∧ scale10 raw ≤ 65535 / 10 ∧ ∃ n : Nat, scale10 raw = n * (1 / 10))

/-- R81: the big-endian word, one-to-one. -/
def Obligations.FixedPointExtractorIsTheBigEndianWord : Prop :=
  (∀ hi lo : Byte, w256 hi lo = hi.toNat * 256 + lo.toNat ∧ w256 hi lo = (hi ++ lo : BitVec 16).toNat ∧
    w256 hi lo ≤ 65535) ∧
  (∀ hi lo hi' lo' : Byte, w256 hi lo = w256 hi' lo' → hi = hi' ∧ lo = lo')

/-- R82, G1: the floating-point view is the finite value of the format nearest to raw / 10, with an even last bit where
another is as near. -/
def Obligations.FloatLanesAreCorrectlyRounded : Prop :=
  ∀ (fmt : FloatFmt) (raw : BitVec 16) (b : Nat), b < (2 * expBias fmt + 1) * 2 ^ fracBits fmt →
    |floatValue fmt (scale10Lane fmt raw).toNat - scale10 raw| ≤ |floatValue fmt b - scale10 raw| ∧
    (|floatValue fmt (scale10Lane fmt raw).toNat - scale10 raw| = |floatValue fmt b - scale10 raw| →
      b = (scale10Lane fmt raw).toNat ∨ (scale10Lane fmt raw).toNat % 2 = 0)

/-- R82's corner cases: +0.0 for 0, exact exactly for the multiples of 5, the greatest value. -/
def Obligations.ScaledValueIsExactForMultiplesOfFive : Prop :=
  (∀ fmt, (scale10Lane fmt 0).toNat = 0) ∧
  (∀ (fmt : FloatFmt) (raw : BitVec 16),
    floatValue fmt (scale10Lane fmt raw).toNat = scale10 raw ↔ raw.toNat % 5 = 0) ∧
  scale10Lane .binary32 65535 = .binary32 0x45CCCC00 ∧ scale10Lane .binary32 1 = .binary32 0x3DCCCCCD

/-- The integer lane v of a port carries hi*255 + lo exactly, in the width of the build (R49, R80). -/
def carries (cfg : Config) (v : IntLane) (hi lo : Byte) : Prop :=
  v.toNat = hi.toNat * 255 + lo.toNat ∧
    match cfg.intOutWidth with
    | .w16 => ∃ b, v = .w16 b
    | .w32 => ∃ b, v = .w32 b

/-- R83 to R86: what the four integer ports show of a held frame. -/
def Obligations.IntegerPortsShowTheFields : Prop :=
  ∀ s : State, s.frameHeld = true → ∃ p : FramePorts, s.ports.frame = some p ∧
    carries s.cfg p.lanes.pm25 s.frameQ[4] s.frameQ[5] ∧
    carries s.cfg p.lanes.tvoc s.frameQ[6] s.frameQ[7] ∧
    carries s.cfg p.lanes.hcho s.frameQ[9] s.frameQ[10] ∧
    carries s.cfg p.lanes.co2 s.frameQ[12] s.frameQ[13]

/-- R87, R88: what the temperature and humidity ports show of a held frame: the raw unsigned word and its scaled view. -/
def Obligations.FixedPointPortsShowTheFields : Prop :=
  ∀ s : State, s.frameHeld = true → ∃ p : FramePorts, s.ports.frame = some p ∧
    p.lanes.tempX10 = s.frameQ[14] ++ s.frameQ[15] ∧
    p.lanes.tempX10.toNat = s.frameQ[14].toNat * 256 + s.frameQ[15].toNat ∧
    p.lanes.tempF = scale10Lane s.cfg.floatFmt p.lanes.tempX10 ∧
    p.lanes.humX10 = s.frameQ[16] ++ s.frameQ[17] ∧
    p.lanes.humX10.toNat = s.frameQ[16].toNat * 256 + s.frameQ[17].toNat ∧
    p.lanes.humF = scale10Lane s.cfg.floatFmt p.lanes.humX10

/-- R48, R113: with a frame held, the read of each field completes and gives the reader what the field's ports show. That
the reader's values stand in State.sampled is the model's choice (log 2). -/
def Obligations.ReadsReturnWhatThePortsShow : Prop :=
  ∀ s : State, s.frameHeld = true → ∃ p : FramePorts, s.ports.frame = some p ∧
    exec .extPm25 s = .next { s with sampled := { s.sampled with pm25 := p.lanes.pm25 } } ∧
    exec .extTvoc s = .next { s with sampled := { s.sampled with tvoc := p.lanes.tvoc } } ∧
    exec .extHcho s = .next { s with sampled := { s.sampled with hcho := p.lanes.hcho } } ∧
    exec .extCo2 s = .next { s with sampled := { s.sampled with co2 := p.lanes.co2 } } ∧
    exec .extTemp s = .next
      { s with sampled := { s.sampled with tempX10 := p.lanes.tempX10, tempF := p.lanes.tempF } } ∧
    exec .extHum s = .next
      { s with sampled := { s.sampled with humX10 := p.lanes.humX10, humF := p.lanes.humF } }

/-- R91: the six results, each from its own two bytes. -/
def Obligations.DecodeFieldsComputesTheSixFields : Prop :=
  ∀ b : Frame,
    (decodeFields b).pm25.toNat = b[4].toNat * 255 + b[5].toNat ∧
    (decodeFields b).tvoc.toNat = b[6].toNat * 255 + b[7].toNat ∧
    (decodeFields b).hcho.toNat = b[9].toNat * 255 + b[10].toNat ∧
    (decodeFields b).co2.toNat = b[12].toNat * 255 + b[13].toNat ∧
    (decodeFields b).tempX10.toNat = b[14].toNat * 256 + b[15].toNat ∧
    (decodeFields b).humX10.toNat = b[16].toNat * 256 + b[17].toNat

/-- The frame bytes that enter no decoder rule: R89's, and the header (R90). -/
def undecodedOffsets : List Nat := [0, 1, 2, 3, 8, 11, 18, 19, 20, 21, 22, 23]

/-- R89, R90: frames that differ only in undecoded bytes decode alike, in every build, and those bytes still appear on
frame_data. -/
def Obligations.UndecodedBytesDoNotMatter : Prop :=
  (∀ (cfg : Config) (b d : Frame), (∀ (i : Nat) (h : i < 24), i ∉ undecodedOffsets → b[i] = d[i]) →
    lanesOf cfg b = lanesOf cfg d ∧ decodeFields b = decodeFields d) ∧
  (∀ (s : State) (p : FramePorts), s.ports.frame = some p → ∀ (i : Nat) (h : i < 24), i ∈ undecodedOffsets →
    p.frameData.extractLsb' (184 - 8 * i) 8 = s.frameQ[i])

/-- R34: byte i of frame_q at frame_data[191 - 8*i : 184 - 8*i]; the header on top of a held frame under R18. -/
def Obligations.FrameDataHasByteZeroOnTop : Prop :=
  (∀ (b : Frame) (i : Nat) (h : i < 24), (frameBits b).extractLsb' (184 - 8 * i) 8 = b[i]) ∧
  (∀ b : Frame, frameOfBits (frameBits b) = b) ∧ (∀ w : BitVec 192, frameBits (frameOfBits w) = w) ∧
  (∀ (s : State) (p : FramePorts), s.heldHeader → s.ports.frame = some p →
    p.frameData = frameBits s.frameQ ∧ p.frameData.extractLsb' 176 16 = 0x424D)

/-- R49: the width of the integer ports changes no value, and each of the four is at most 65280 (R96). -/
def Obligations.IntegerWidthChangesNoValue : Prop :=
  ∀ (cfg : Config) (w : IntWidth) (b : Frame),
    (lanesOf { cfg with intOutWidth := w } b).pm25.toNat = (lanesOf cfg b).pm25.toNat ∧
    (lanesOf { cfg with intOutWidth := w } b).tvoc.toNat = (lanesOf cfg b).tvoc.toNat ∧
    (lanesOf { cfg with intOutWidth := w } b).hcho.toNat = (lanesOf cfg b).hcho.toNat ∧
    (lanesOf { cfg with intOutWidth := w } b).co2.toNat = (lanesOf cfg b).co2.toNat ∧
    (lanesOf cfg b).pm25.toNat ≤ 65280 ∧ (lanesOf cfg b).tvoc.toNat ≤ 65280 ∧
    (lanesOf cfg b).hcho.toNat ≤ 65280 ∧ (lanesOf cfg b).co2.toNat ≤ 65280

/-- R92, R94: two Records of one held frame differ at most in captured_at, and carry what the ports show. -/
def Obligations.RecordsOfOneFrameDifferOnlyInTimestamp : Prop :=
  ∀ (τ : Type) (s : State) (p : FramePorts) (now later : τ), s.ports.frame = some p →
    formRecord s.cfg s.frameQ later = { formRecord s.cfg s.frameQ now with capturedAt := later } ∧
    (formRecord s.cfg s.frameQ now).capturedAt = now ∧
    (formRecord s.cfg s.frameQ now).pm25.toNat = p.lanes.pm25.toNat ∧
    (formRecord s.cfg s.frameQ now).tvoc.toNat = p.lanes.tvoc.toNat ∧
    (formRecord s.cfg s.frameQ now).hcho.toNat = p.lanes.hcho.toNat ∧
    (formRecord s.cfg s.frameQ now).co2.toNat = p.lanes.co2.toNat ∧
    (formRecord s.cfg s.frameQ now).temperature = p.lanes.tempF ∧
    (formRecord s.cfg s.frameQ now).humidity = p.lanes.humF

/-! ## Streams -/

/-- R71: a stream is fed byte by byte. No byte: nothing happens; one byte x: Feed of x; a stream in two pieces gives the
outputs of the first, then those of the second from the state the first left; so byte i meets the state that the bytes
before it left, and (S_i, o_i) are Feed's. -/
def Obligations.StreamsCompose : Prop :=
  (∀ (cfg : Config) (q : SyncState), feedStream cfg q [] = (q, [])) ∧
  (∀ (cfg : Config) (q : SyncState) (x : Byte),
    feedStream cfg q [x] = ((feed cfg q x).1, [(feed cfg q x).2])) ∧
  (∀ (cfg : Config) (q : SyncState) (xs ys : List Byte),
    (feedStream cfg q (xs ++ ys)).1 = (feedStream cfg (feedStream cfg q xs).1 ys).1 ∧
    (feedStream cfg q (xs ++ ys)).2 =
      (feedStream cfg q xs).2 ++ (feedStream cfg (feedStream cfg q xs).1 ys).2) ∧
  (∀ (cfg : Config) (q : SyncState) (xs : List Byte) (i : Nat) (x : Byte), xs[i]? = some x →
    (feedStream cfg q (xs.take (i + 1))).1 = (feed cfg (feedStream cfg q (xs.take i)).1 x).1 ∧
    (feedStream cfg q xs).2[i]? = some (feed cfg (feedStream cfg q (xs.take i)).1 x).2)

/-- R68: the frame emitted at byte t is the bytes t-23 .. t of the stream. -/
def Obligations.EmittedFrameIsTheLast24Bytes : Prop :=
  ∀ (cfg : Config) (q : SyncState) (xs : List Byte) (t : Nat) (f : Frame), q.cur = 0 →
    (feedStream cfg q xs).2[t]? = some (some f) →
    23 ≤ t ∧ f.toList = (xs.drop (t - 23)).take 24

/-- R68 as an invariant of the step: if the stored bytes are the last cur of the bytes accepted since the last reset, so
are they after the step, and a frame the step emits is the last 24 of those bytes. With cur = 0, as after a reset, the
premise holds of any history. -/
def Obligations.StoredBytesAreTheLastAccepted : Prop :=
  (∀ (s : State) (h : List Byte), s.cur = 0 → s.partialFrame <:+ h) ∧
  (∀ (s t : State) (h : List Byte), s.partialFrame <:+ h → step s = .next t →
    t.partialFrame <:+ s.historyAfter h ∧ ∀ f, emitted s t = some f → f.toList <:+ s.historyAfter h)

/-- R72: from state 0 a stream without 0x42 0x4D emits nothing, however it is chunked (idle edges may carry any in_byte,
0x42 or 0x4D too); the converse fails (for
RESYNC_RETEST = false by 42 42 4D), and so does the property from state 2. -/
def Obligations.NoHeaderNoFrame : Prop :=
  (∀ (s : State) (slots : List (Bool × Byte)) (rest : List Stimulus), s.cur = 0 →
    s.pending = slots.map slot ++ rest → ¬[0x42, 0x4D] <:+: accepted slots →
    emissions slots.length s = []) ∧
  (∀ (cfg : Config) (q : SyncState), q.cur = 0 → cfg.resyncRetest = false →
    ∀ f, some f ∉ (feedStream cfg q (0x42 :: 0x42 :: 0x4D :: List.replicate 22 0)).2) ∧
  (∀ (cfg : Config) (q : SyncState), q.cur = 2 →
    ∃ f, some f ∈ (feedStream cfg q (List.replicate 22 0)).2)

/-- R73: a header and 22 arbitrary bytes in state 0 emit exactly one frame, at the 24th byte, equal to them. -/
def Obligations.HeaderAndBodyEmitTheFrame : Prop :=
  ∀ (cfg : Config) (q : SyncState) (body : List Byte), q.cur = 0 → body.length = 22 →
    ∃ f : Frame, f.toList = 0x42 :: 0x4D :: body ∧
      (feedStream cfg q (0x42 :: 0x4D :: body)).2 = List.replicate 23 none ++ [some f] ∧
      (feedStream cfg q (0x42 :: 0x4D :: body)).1.cur = 0

/-- R74: idle cycles anywhere, whatever in_byte is at them, change neither the frames emitted nor the state after the last
byte. -/
def Obligations.IdleCyclesChangeNoFrame : Prop :=
  ∀ (s : State) (slots : List (Bool × Byte)) (rest : List Stimulus), s.pending = slots.map slot ++ rest →
    ∃ t : State, Host.Core.run Sys2Proof.core slots.length s = .next t ∧
      t.sync = (feedStream s.cfg s.sync (accepted slots)).1 ∧
      emissions slots.length s = (feedStream s.cfg s.sync (accepted slots)).2.filterMap id ∧
      t.frameQ = (emissions slots.length s).getLastD s.frameQ ∧
      (t.frameHeld = true ↔ s.frameHeld = true ∨ emissions slots.length s ≠ []) ∧
      t.pending = rest

/-- R75: 42 42 4D and 22 bytes in state 0. With RESYNC_RETEST = false the header is lost and the 22 bytes are fed from
state 0, too few for a frame. -/
def Obligations.SecondHeaderByteIsNotRetested : Prop :=
  ∀ (cfg : Config) (q : SyncState) (c : List Byte), q.cur = 0 → cfg.resyncRetest = false → c.length = 22 →
    (feedStream cfg q [0x42]).1.cur = 1 ∧ (feedStream cfg q [0x42, 0x42]).1.cur = 0 ∧
    (feedStream cfg q [0x42, 0x42, 0x4D]).1.cur = 0 ∧
    (feedStream cfg q (0x42 :: 0x42 :: 0x4D :: c)).1 = (feedStream cfg ⟨0, q.buf.write 0 0x42⟩ c).1 ∧
    (feedStream cfg q (0x42 :: 0x42 :: 0x4D :: c)).2 = List.replicate 25 none

/-- R76: between two emissions at least 24 bytes are accepted, all of them the second frame's, and frames may follow
each other with no gap. -/
def Obligations.EmissionsAre24BytesApart : Prop :=
  (∀ (cfg : Config) (q : SyncState) (xs : List Byte) (t u : Nat) (f g : Frame),
    (feedStream cfg q xs).2[t]? = some (some f) → (feedStream cfg q xs).2[u]? = some (some g) → t < u →
    t + 24 ≤ u ∧ g.toList = (xs.drop (u - 23)).take 24) ∧
  (∀ (cfg : Config) (q : SyncState) (b c : List Byte), q.cur = 0 → b.length = 22 → c.length = 22 →
    ∃ f g : Frame, f.toList = 0x42 :: 0x4D :: b ∧ g.toList = 0x42 :: 0x4D :: c ∧
      (feedStream cfg q (0x42 :: 0x4D :: b ++ 0x42 :: 0x4D :: c)).2 =
        List.replicate 23 none ++ [some f] ++ List.replicate 23 none ++ [some g])

/-- R52, R57, R78, R122: past the header the block counts: whatever the remaining bytes are, the last one emits the bytes
stored so far and them, and nothing starts a new header. -/
def Obligations.BodyBytesAreDataWhateverTheyAre : Prop :=
  ∀ (cfg : Config) (q : SyncState) (xs : List Byte), 2 ≤ q.cur.toNat → q.cur.toNat ≤ 23 →
    xs.length = 24 - q.cur.toNat →
    ∃ f : Frame, f.toList = (List.range q.cur.toNat).map q.buf.read ++ xs ∧
      (feedStream cfg q xs).2 = List.replicate (23 - q.cur.toNat) none ++ [some f] ∧
      (feedStream cfg q xs).1.cur = 0

/-- R121: a frame that lost one body byte takes the next frame's 0x42 as its last byte, and the next frame, if its body
holds no 0x42 0x4D, is skipped. A frame with a byte too many is emitted one byte early, and the last byte is searched as a
header byte. -/
def Obligations.LostOrExtraBytesShiftTheFrame : Prop :=
  (∀ (cfg : Config) (q : SyncState) (b c : List Byte), q.cur = 0 → b.length = 21 → c.length = 22 →
    ¬[0x42, 0x4D] <:+: c →
    ∃ f : Frame, f.toList = 0x42 :: 0x4D :: b ++ [0x42] ∧
      (feedStream cfg q (0x42 :: 0x4D :: b ++ 0x42 :: 0x4D :: c)).2 =
        List.replicate 23 none ++ [some f] ++ List.replicate 23 none) ∧
  (∀ (cfg : Config) (q : SyncState) (b : List Byte) (y : Byte), q.cur = 0 → b.length = 22 →
    ∃ f : Frame, f.toList = 0x42 :: 0x4D :: b ∧
      (feedStream cfg q (0x42 :: 0x4D :: b ++ [y])).2 = List.replicate 23 none ++ [some f, none] ∧
      (feedStream cfg q (0x42 :: 0x4D :: b ++ [y])).1.cur = if y = 0x42 then 1 else 0)

/-- The poll command of R107, R124. -/
def pollCommand : List Byte := [0x42, 0x4D, 0xAB, 0x00, 0x00, 0x01, 0x3A]

/-- R124: an echoed command and the next 17 bytes, whatever they are, are emitted as one frame. -/
def Obligations.EchoedCommandIsTakenAsAFrame : Prop :=
  ∀ (cfg : Config) (q : SyncState) (xs : List Byte), q.cur = 0 → xs.length = 17 →
    ∃ f : Frame, f.toList = pollCommand ++ xs ∧
      (feedStream cfg q (pollCommand ++ xs)).2 = List.replicate 23 none ++ [some f]
end

