-- ==== Sys2Proof/Laws/Decode.lean ====
section
/-! SUPPORT. The bits of a key and the rows of the transition map. -/

namespace Sys2Proof

/-- bits 12..8 of {c, x} are c. -/
@[simp] theorem keyCur_keyOf (c : Cursor) (x : Byte) : keyCur (keyOf c x) = c := by
  unfold keyCur keyOf
  ext i hi
  simp only [BitVec.getElem_extractLsb', BitVec.getLsbD_append]
  simp [hi]

/-- bits 7..0 of {c, x} are x. -/
@[simp] theorem keyByte_keyOf (c : Cursor) (x : Byte) : keyByte (keyOf c x) = x := by
  unfold keyByte keyOf
  ext i hi
  simp only [BitVec.getElem_extractLsb', BitVec.getLsbD_append]
  simp [hi]

/-- A key is its cursor and its byte. -/
@[simp] theorem keyOf_keyCur_keyByte (k : Key) : keyOf (keyCur k) (keyByte k) = k := by
  unfold keyCur keyByte keyOf
  ext i hi
  simp only [BitVec.getElem_append, BitVec.getElem_extractLsb']
  split
  · simp [BitVec.getLsbD_eq_getElem hi]
  · next h =>
    have : 8 + (i - 8) = i := by omega
    rw [this, BitVec.getLsbD_eq_getElem hi]

/-- Two keys agree exactly if cursor and byte do. -/
theorem keyOf_inj {c d : Cursor} {x y : Byte} : keyOf c x = keyOf d y ↔ c = d ∧ x = y := by
  refine ⟨fun h => ⟨?_, ?_⟩, fun h => by rw [h.1, h.2]⟩
  · simpa using congrArg keyCur h
  · simpa using congrArg keyByte h

/-- A mask over a key is a mask over its cursor and a mask over its byte. -/
theorem keyOf_and (c m : Cursor) (x n : Byte) : keyOf c x &&& keyOf m n = keyOf (c &&& m) (x &&& n) :=
  BitVec.and_append

/-- A row covers the key {c, x} exactly if it covers the cursor and the byte. -/
theorem KeyRow.covers_keyOf (r : KeyRow) (c : Cursor) (x : Byte) :
    r.covers (keyOf c x) = (c &&& keyCur r.mask == keyCur r.mat && x &&& keyByte r.mask == keyByte r.mat) := by
  have h : keyOf c x &&& r.mask = keyOf (c &&& keyCur r.mask) (x &&& keyByte r.mask) := by
    rw [← keyOf_and, keyOf_keyCur_keyByte]
  have hm : r.mat = keyOf (keyCur r.mat) (keyByte r.mat) := (keyOf_keyCur_keyByte _).symm
  rw [Bool.eq_iff_iff]
  simp only [KeyRow.covers, h, beq_iff_eq, Bool.and_eq_true]
  conv_lhs => rw [hm]
  exact keyOf_inj

end Sys2Proof
end

