-- ==== Sys2Proof/Laws/Memory.lean ====
section
/-! SUPPORT. The laws of the accumulation buffer: a byte read after a write, every other byte unchanged, the canonical
form kept by every operation, and the frame as 24 reads. None of the read laws needs the canonical form. -/

namespace Sys2Proof.Machine

theorem Memory.read_of_find {m : Memory} {a : Nat} {o : Option Host.Cell}
    (h : m.find? (fun c => c.1 == a) = o) : m.read a = (o.map Prod.snd).getD unlistedByte := by
  unfold Memory.read
  rw [h]
  cases o <;> rfl

theorem Memory.find_filter_same (m : Memory) (a : Nat) :
    (m.filter fun c => c.1 != a).find? (fun c => c.1 == a) = none := by
  simp [List.find?_eq_none]

theorem Memory.find_filter_other (m : Memory) {a b : Nat} (h : b ≠ a) :
    (m.filter fun c => c.1 != a).find? (fun c => c.1 == b) = m.find? (fun c => c.1 == b) := by
  induction m with
  | nil => rfl
  | cons c m ih =>
    by_cases hca : c.1 = a
    · have hcb : (c.1 == b) = false := by simp [hca, Ne.symm h]
      rw [List.filter_cons_of_neg (by simp [hca]), List.find?_cons, hcb, ih]
    · rw [List.filter_cons_of_pos (by simp [hca]), List.find?_cons, List.find?_cons, ih]

theorem Memory.find_insert_same {m : Memory} {a : Nat} {v : Byte}
    (h : m.find? (fun c => c.1 == a) = none) :
    (Memory.insert (a, v) m).find? (fun c => c.1 == a) = some (a, v) := by
  induction m with
  | nil => simp [Memory.insert]
  | cons d m ih =>
    rw [List.find?_cons] at h
    unfold Memory.insert
    split
    · simp
    · cases hd : d.1 == a with
      | true => rw [hd] at h; simp at h
      | false => rw [hd] at h; rw [List.find?_cons, hd]; exact ih h

theorem Memory.find_insert_other (m : Memory) {a b : Nat} (v : Byte) (h : b ≠ a) :
    (Memory.insert (a, v) m).find? (fun c => c.1 == b) = m.find? (fun c => c.1 == b) := by
  have hab : (a == b) = false := by simp [Ne.symm h]
  induction m with
  | nil => simp [Memory.insert, hab]
  | cons d m ih =>
    unfold Memory.insert
    split
    · rw [List.find?_cons, hab]
    · rw [List.find?_cons, List.find?_cons, ih]

/-- The byte read where a byte was written is that byte. -/
@[simp] theorem Memory.read_write_same (m : Memory) (a : Nat) (v : Byte) : (m.write a v).read a = v := by
  unfold Memory.write
  split
  · next h => rw [Memory.read_of_find (Memory.find_filter_same m a), h]; rfl
  · rw [Memory.read_of_find (Memory.find_insert_same (Memory.find_filter_same m a))]; rfl

/-- A write leaves every other byte alone. -/
theorem Memory.read_write_other (m : Memory) {a b : Nat} (v : Byte) (h : b ≠ a) :
    (m.write a v).read b = m.read b := by
  unfold Memory.write
  split
  · rw [Memory.read_of_find (Memory.find_filter_other m h), Memory.read_of_find rfl]
  · rw [Memory.read_of_find (Memory.find_insert_other _ v h),
      ← Memory.read_of_find rfl, Memory.read_of_find (Memory.find_filter_other m h), Memory.read_of_find rfl]

/-- Both read laws as one equation. -/
theorem Memory.read_write (m : Memory) (a b : Nat) (v : Byte) :
    (m.write a v).read b = if b = a then v else m.read b := by
  split
  · next h => rw [h, Memory.read_write_same]
  · next h => exact Memory.read_write_other m v h

/-- The empty list reads as the unlisted byte everywhere. -/
@[simp] theorem Memory.read_nil (a : Nat) : Memory.read [] a = unlistedByte := rfl

theorem Memory.mem_insert {m : Memory} {c e : Host.Cell} :
    e ∈ Memory.insert c m ↔ e = c ∨ e ∈ m := by
  induction m with
  | nil => simp [Memory.insert]
  | cons d m ih =>
    unfold Memory.insert
    split
    · simp
    · simp only [List.mem_cons, ih]
      exact or_left_comm

/-- The canonical form, said with quantifiers. -/
theorem Memory.wf_iff (m : Memory) :
    m.wf = true ↔ m.Pairwise (fun c d => c.1 < d.1) ∧ ∀ c ∈ m, c.1 < 24 ∧ c.2 ≠ unlistedByte := by
  simp [Memory.wf, List.all_eq_true]

theorem Memory.pairwise_insert {m : Memory} {c : Host.Cell} (hm : m.Pairwise fun c d => c.1 < d.1)
    (hc : ∀ d ∈ m, d.1 ≠ c.1) : (Memory.insert c m).Pairwise fun c d => c.1 < d.1 := by
  induction m with
  | nil => simp [Memory.insert]
  | cons d m ih =>
    rw [List.pairwise_cons] at hm
    unfold Memory.insert
    split
    · next h =>
      refine List.pairwise_cons.2 ⟨fun e he => ?_, List.pairwise_cons.2 hm⟩
      rcases List.mem_cons.1 he with rfl | he
      · exact h
      · exact h.trans (hm.1 e he)
    · next h =>
      refine List.pairwise_cons.2 ⟨fun e he => ?_, ih hm.2 fun e he => hc e (List.mem_cons_of_mem d he)⟩
      rcases Memory.mem_insert.1 he with rfl | he
      · exact lt_of_le_of_ne (not_lt.1 h) (hc d List.mem_cons_self)
      · exact hm.1 e he

/-- A write below 24 keeps the canonical form. -/
theorem Memory.wf_write {m : Memory} (hm : m.wf = true) {a : Nat} (ha : a < 24) (v : Byte) :
    (m.write a v).wf = true := by
  rw [Memory.wf_iff] at hm ⊢
  unfold Memory.write
  split
  · exact ⟨hm.1.filter _, fun c hc => hm.2 c (List.mem_filter.1 hc).1⟩
  · next hv =>
    refine ⟨Memory.pairwise_insert (hm.1.filter _) fun d hd => ?_, fun c hc => ?_⟩
    · simpa using (List.mem_filter.1 hd).2
    · rcases Memory.mem_insert.1 hc with rfl | hc
      · exact ⟨ha, hv⟩
      · exact hm.2 c (List.mem_filter.1 hc).1

/-- Twenty-four given bytes are in canonical form. -/
theorem Memory.wf_ofBytes (f : Nat → Byte) : (Memory.ofBytes f).wf = true := by
  rw [Memory.wf_iff]
  refine ⟨?_, fun c hc => ?_⟩
  · refine List.Pairwise.filter _ ?_
    rw [List.pairwise_map]
    exact List.pairwise_lt_range
  · have h := List.mem_filter.1 hc
    obtain ⟨i, hi, rfl⟩ := List.mem_map.1 h.1
    exact ⟨List.mem_range.1 hi, by simpa using h.2⟩

/-- The empty buffer is in canonical form. -/
@[simp] theorem Memory.wf_nil : Memory.wf [] = true := rfl

/-- Two buffers in canonical form that read the same everywhere are the same data. -/
theorem Memory.eq_of_read_eq {m n : Memory} (hm : m.wf = true) (hn : n.wf = true)
    (h : ∀ a, m.read a = n.read a) : m = n := by
  rw [Memory.wf_iff] at hm hn
  have key : ∀ (p : Memory), p.Pairwise (fun c d => c.1 < d.1) →
      (∀ c ∈ p, c.1 < 24 ∧ c.2 ≠ unlistedByte) → ∀ c : Host.Cell,
      c ∈ p ↔ p.read c.1 = c.2 ∧ c.2 ≠ unlistedByte := by
    intro p hp hw c
    induction p with
    | nil => simp only [List.not_mem_nil, Memory.read_nil, false_iff]; exact fun h => h.2 h.1.symm
    | cons d p ih =>
      rw [List.pairwise_cons] at hp
      have ih := ih hp.2 fun c hc => hw c (List.mem_cons_of_mem d hc)
      by_cases hd : d.1 = c.1
      · have hr : Memory.read (d :: p) c.1 = d.2 := by simp [Memory.read, hd]
        rw [hr]
        constructor
        · intro hc
          rcases List.mem_cons.1 hc with rfl | hc
          · exact ⟨rfl, (hw _ List.mem_cons_self).2⟩
          · exact absurd hd (hp.1 c hc).ne
        · intro hc
          exact List.mem_cons.2 (.inl (Prod.ext hd.symm hc.1.symm))
      · have hr : Memory.read (d :: p) c.1 = Memory.read p c.1 := by simp [Memory.read, hd]
        rw [hr, ← ih, List.mem_cons]
        exact or_iff_right fun e => hd (e ▸ rfl)
  have hmem : ∀ c, c ∈ m ↔ c ∈ n := fun c => by
    rw [key m hm.1 hm.2 c, key n hn.1 hn.2 c, h]
  have hnd : ∀ {p : Memory}, p.Pairwise (fun c d => c.1 < d.1) → p.Nodup :=
    fun hp => hp.imp fun hlt he => absurd (congrArg Prod.fst he) hlt.ne
  exact List.Perm.eq_of_pairwise (fun a b _ _ hab hba => absurd hab hba.asymm) hm.1 hn.1
    ((List.perm_ext_iff_of_nodup (hnd hm.1) (hnd hn.1)).2 hmem)

/-- Byte i of the frame is the byte at index i. -/
@[simp] theorem Memory.frame_getElem (m : Memory) {i : Nat} (h : i < 24) : m.frame[i] = m.read i := by
  simp [Memory.frame]

/-- A given byte is read back. -/
theorem Memory.read_ofBytes (f : Nat → Byte) {a : Nat} (ha : a < 24) : (Memory.ofBytes f).read a = f a := by
  have key : ∀ n, a < n → (((List.range n).map fun i => (i, f i)).filter
      (fun c : Host.Cell => c.2 != unlistedByte)).find? (fun c => c.1 == a) =
      if f a = unlistedByte then none else some (a, f a) := by
    intro n hn
    by_cases hu : f a = unlistedByte
    · rw [if_pos hu, List.find?_eq_none]
      intro c hc
      have h := List.mem_filter.1 hc
      obtain ⟨i, -, rfl⟩ := List.mem_map.1 h.1
      intro he
      have hia : i = a := by simpa using he
      subst hia
      simp [hu] at h
    · rw [if_neg hu]
      induction n with
      | zero => omega
      | succ n ih =>
        rw [List.range_succ, List.map_append, List.filter_append, List.find?_append]
        by_cases hna : a = n
        · subst hna
          rw [List.find?_eq_none.2, Option.none_or]
          · simp [hu]
          · intro c hc
            obtain ⟨i, hi, rfl⟩ := List.mem_map.1 (List.mem_filter.1 hc).1
            have := List.mem_range.1 hi
            simp only [beq_iff_eq]
            omega
        · rw [ih (by omega), Option.some_or]
  unfold Memory.ofBytes
  rw [Memory.read_of_find (key 24 ha)]
  split
  · next h => rw [h]; rfl
  · rfl

end Sys2Proof.Machine
end

