-- ==== Sys2Proof/Laws/State.lean ====
section
/-! SUPPORT. One lemma per field of State per update, each true by definition, so that no later proof unfolds an
update. -/

namespace Sys2Proof.Machine

@[simp] theorem State.storeByte_cfg (s : State) (i : Nat) (x : Byte) : (s.storeByte i x).cfg = s.cfg := rfl
@[simp] theorem State.storeByte_cur (s : State) (i : Nat) (x : Byte) : (s.storeByte i x).cur = s.cur := rfl
@[simp] theorem State.storeByte_buf (s : State) (i : Nat) (x : Byte) : (s.storeByte i x).buf = s.buf.write i x := rfl
@[simp] theorem State.storeByte_frameQ (s : State) (i : Nat) (x : Byte) : (s.storeByte i x).frameQ = s.frameQ := rfl
@[simp] theorem State.storeByte_frameHeld (s : State) (i : Nat) (x : Byte) : (s.storeByte i x).frameHeld =
    s.frameHeld := rfl
@[simp] theorem State.storeByte_frameValid (s : State) (i : Nat) (x : Byte) : (s.storeByte i x).frameValid =
    s.frameValid := rfl
@[simp] theorem State.storeByte_pending (s : State) (i : Nat) (x : Byte) : (s.storeByte i x).pending =
    s.pending := rfl
@[simp] theorem State.storeByte_sampled (s : State) (i : Nat) (x : Byte) : (s.storeByte i x).sampled =
    s.sampled := rfl
@[simp] theorem State.storeByte_draws (s : State) (i : Nat) (x : Byte) : (s.storeByte i x).draws = s.draws := rfl

@[simp] theorem State.goto_cfg (s : State) (c : Cursor) : (s.goto c).cfg = s.cfg := rfl
@[simp] theorem State.goto_cur (s : State) (c : Cursor) : (s.goto c).cur = c := rfl
@[simp] theorem State.goto_buf (s : State) (c : Cursor) : (s.goto c).buf = s.buf := rfl
@[simp] theorem State.goto_frameQ (s : State) (c : Cursor) : (s.goto c).frameQ = s.frameQ := rfl
@[simp] theorem State.goto_frameHeld (s : State) (c : Cursor) : (s.goto c).frameHeld = s.frameHeld := rfl
@[simp] theorem State.goto_frameValid (s : State) (c : Cursor) : (s.goto c).frameValid = s.frameValid := rfl
@[simp] theorem State.goto_pending (s : State) (c : Cursor) : (s.goto c).pending = s.pending := rfl
@[simp] theorem State.goto_sampled (s : State) (c : Cursor) : (s.goto c).sampled = s.sampled := rfl
@[simp] theorem State.goto_draws (s : State) (c : Cursor) : (s.goto c).draws = s.draws := rfl

@[simp] theorem State.loadFrame_cfg (s : State) (f : Frame) : (s.loadFrame f).cfg = s.cfg := rfl
@[simp] theorem State.loadFrame_cur (s : State) (f : Frame) : (s.loadFrame f).cur = s.cur := rfl
@[simp] theorem State.loadFrame_buf (s : State) (f : Frame) : (s.loadFrame f).buf = s.buf := rfl
@[simp] theorem State.loadFrame_frameQ (s : State) (f : Frame) : (s.loadFrame f).frameQ = f := rfl
@[simp] theorem State.loadFrame_frameHeld (s : State) (f : Frame) : (s.loadFrame f).frameHeld = s.frameHeld := rfl
@[simp] theorem State.loadFrame_frameValid (s : State) (f : Frame) : (s.loadFrame f).frameValid = s.frameValid := rfl
@[simp] theorem State.loadFrame_pending (s : State) (f : Frame) : (s.loadFrame f).pending = s.pending := rfl
@[simp] theorem State.loadFrame_sampled (s : State) (f : Frame) : (s.loadFrame f).sampled = s.sampled := rfl
@[simp] theorem State.loadFrame_draws (s : State) (f : Frame) : (s.loadFrame f).draws = s.draws := rfl

@[simp] theorem State.scramble_cfg (s : State) : s.scramble.cfg = s.cfg := rfl
@[simp] theorem State.scramble_cur (s : State) : s.scramble.cur = s.cur := rfl
@[simp] theorem State.scramble_buf (s : State) : s.scramble.buf =
    Memory.ofBytes fun i => Config.freeByte (s.draws + i) := rfl
@[simp] theorem State.scramble_frameQ (s : State) : s.scramble.frameQ =
    Vector.ofFn fun i : Fin 24 => Config.freeByte (s.draws + 24 + i) := rfl
@[simp] theorem State.scramble_frameHeld (s : State) : s.scramble.frameHeld = s.frameHeld := rfl
@[simp] theorem State.scramble_frameValid (s : State) : s.scramble.frameValid = s.frameValid := rfl
@[simp] theorem State.scramble_pending (s : State) : s.scramble.pending = s.pending := rfl
@[simp] theorem State.scramble_sampled (s : State) : s.scramble.sampled = s.sampled := rfl
@[simp] theorem State.scramble_draws (s : State) : s.scramble.draws = s.draws + 48 := rfl

@[simp] theorem State.strobeLow_cfg (s : State) : s.strobeLow.cfg = s.cfg := rfl
@[simp] theorem State.strobeLow_cur (s : State) : s.strobeLow.cur = s.cur := rfl
@[simp] theorem State.strobeLow_buf (s : State) : s.strobeLow.buf = s.buf := rfl
@[simp] theorem State.strobeLow_frameQ (s : State) : s.strobeLow.frameQ = s.frameQ := rfl
@[simp] theorem State.strobeLow_frameHeld (s : State) : s.strobeLow.frameHeld = s.frameHeld := rfl
@[simp] theorem State.strobeLow_frameValid (s : State) : s.strobeLow.frameValid = false := rfl
@[simp] theorem State.strobeLow_pending (s : State) : s.strobeLow.pending = s.pending := rfl
@[simp] theorem State.strobeLow_sampled (s : State) : s.strobeLow.sampled = s.sampled := rfl
@[simp] theorem State.strobeLow_draws (s : State) : s.strobeLow.draws = s.draws := rfl

@[simp] theorem State.strobeHigh_cfg (s : State) : s.strobeHigh.cfg = s.cfg := rfl
@[simp] theorem State.strobeHigh_cur (s : State) : s.strobeHigh.cur = s.cur := rfl
@[simp] theorem State.strobeHigh_buf (s : State) : s.strobeHigh.buf = s.buf := rfl
@[simp] theorem State.strobeHigh_frameQ (s : State) : s.strobeHigh.frameQ = s.frameQ := rfl
@[simp] theorem State.strobeHigh_frameHeld (s : State) : s.strobeHigh.frameHeld = true := rfl
@[simp] theorem State.strobeHigh_frameValid (s : State) : s.strobeHigh.frameValid = true := rfl
@[simp] theorem State.strobeHigh_pending (s : State) : s.strobeHigh.pending = s.pending := rfl
@[simp] theorem State.strobeHigh_sampled (s : State) : s.strobeHigh.sampled = s.sampled := rfl
@[simp] theorem State.strobeHigh_draws (s : State) : s.strobeHigh.draws = s.draws := rfl

@[simp] theorem State.clearFlags_cfg (s : State) : s.clearFlags.cfg = s.cfg := rfl
@[simp] theorem State.clearFlags_cur (s : State) : s.clearFlags.cur = s.cur := rfl
@[simp] theorem State.clearFlags_buf (s : State) : s.clearFlags.buf = s.buf := rfl
@[simp] theorem State.clearFlags_frameQ (s : State) : s.clearFlags.frameQ = s.frameQ := rfl
@[simp] theorem State.clearFlags_frameHeld (s : State) : s.clearFlags.frameHeld = false := rfl
@[simp] theorem State.clearFlags_frameValid (s : State) : s.clearFlags.frameValid = false := rfl
@[simp] theorem State.clearFlags_pending (s : State) : s.clearFlags.pending = s.pending := rfl
@[simp] theorem State.clearFlags_sampled (s : State) : s.clearFlags.sampled = s.sampled := rfl
@[simp] theorem State.clearFlags_draws (s : State) : s.clearFlags.draws = s.draws := rfl

@[simp] theorem State.consume_cfg (s : State) : s.consume.cfg = s.cfg := rfl
@[simp] theorem State.consume_cur (s : State) : s.consume.cur = s.cur := rfl
@[simp] theorem State.consume_buf (s : State) : s.consume.buf = s.buf := rfl
@[simp] theorem State.consume_frameQ (s : State) : s.consume.frameQ = s.frameQ := rfl
@[simp] theorem State.consume_frameHeld (s : State) : s.consume.frameHeld = s.frameHeld := rfl
@[simp] theorem State.consume_frameValid (s : State) : s.consume.frameValid = s.frameValid := rfl
@[simp] theorem State.consume_pending (s : State) : s.consume.pending = s.pending.tail := rfl
@[simp] theorem State.consume_sampled (s : State) : s.consume.sampled = s.sampled := rfl
@[simp] theorem State.consume_draws (s : State) : s.consume.draws = s.draws := rfl

@[simp] theorem State.offer_cfg (s : State) (e : List Stimulus) : (s.offer e).cfg = s.cfg := rfl
@[simp] theorem State.offer_cur (s : State) (e : List Stimulus) : (s.offer e).cur = s.cur := rfl
@[simp] theorem State.offer_buf (s : State) (e : List Stimulus) : (s.offer e).buf = s.buf := rfl
@[simp] theorem State.offer_frameQ (s : State) (e : List Stimulus) : (s.offer e).frameQ = s.frameQ := rfl
@[simp] theorem State.offer_frameHeld (s : State) (e : List Stimulus) : (s.offer e).frameHeld = s.frameHeld := rfl
@[simp] theorem State.offer_frameValid (s : State) (e : List Stimulus) : (s.offer e).frameValid = s.frameValid := rfl
@[simp] theorem State.offer_pending (s : State) (e : List Stimulus) : (s.offer e).pending = e ++ s.pending := rfl
@[simp] theorem State.offer_sampled (s : State) (e : List Stimulus) : (s.offer e).sampled = s.sampled := rfl
@[simp] theorem State.offer_draws (s : State) (e : List Stimulus) : (s.offer e).draws = s.draws := rfl

end Sys2Proof.Machine
end

