-- ==== Sys2Proof/Laws/Ops.lean ====
section
/-! SUPPORT. One lemma per shared operation that says everything it can do, and the inversion of a step. -/

namespace Sys2Proof.Machine

/-- A read of a decoder output goes on exactly if a frame is held, and then only sampled changes. -/
theorem readPorts_next {s t : State} {read : Frame → Lanes} :
    s.readPorts read = .next t ↔ s.frameHeld = true ∧ t = { s with sampled := read s.frameQ } := by
  unfold State.readPorts
  split
  · next h => simp [h, eq_comm]
  · next h => simp [h]

/-- A read of a decoder output faults exactly if no frame is held, and then as a read before any frame. -/
theorem readPorts_fault {s : State} {read : Frame → Lanes} {f : Fault} :
    s.readPorts read = .fault f ↔ s.frameHeld = false ∧ f = .readBeforeFrame := by
  unfold State.readPorts
  split
  · next h => simp [h]
  · next h => simp [h, eq_comm]

/-- A read of a decoder output is never refused. -/
theorem readPorts_not_refused {s : State} {read : Frame → Lanes} {r : Refusal} :
    s.readPorts read ≠ .refused r := by
  unfold State.readPorts
  split <;> simp

/-- What the reader of a field's ports holds after the read of a frame. -/
def fieldRead (s : State) (f : Field) (b : Frame) : Lanes :=
  let l := lanesOf s.cfg b
  match f with
  | .pm25 => { s.sampled with pm25 := l.pm25 }
  | .tvoc => { s.sampled with tvoc := l.tvoc }
  | .hcho => { s.sampled with hcho := l.hcho }
  | .co2 => { s.sampled with co2 := l.co2 }
  | .temp => { s.sampled with tempX10 := l.tempX10, tempF := l.tempF }
  | .hum => { s.sampled with humX10 := l.humX10, humF := l.humF }

/-- The six decoder rows are reads of what the ports show (lanesOf). -/
theorem exec_decodeField (f : Field) (s : State) : exec (decodeField f) s = s.readPorts (fieldRead s f) := by
  cases f <;> rfl

/-- A transition that stores nothing: cur and the strobe. -/
theorem skipTo_eq (s : State) (c : Cursor) : s.skipTo c = .next { s with cur := c, frameValid := false } := rfl

/-- A transition that stores: one byte, cur and the strobe. -/
theorem storeTo_eq (s : State) (i : Nat) (x : Byte) (c : Cursor) :
    s.storeTo i x c = .next { s with buf := s.buf.write i x, cur := c, frameValid := false } := rfl

/-- The state's own synchronizer part is its cursor and buffer. -/
theorem sync_eq (s : State) : s.sync = ⟨s.cur, s.buf⟩ := rfl

/-- frameOfBits picks bytes from the most significant end. -/
theorem frameOfBits_getElem (w : BitVec 192) {i : Nat} (h : i < 24) :
    (frameOfBits w)[i] = w.extractLsb' (184 - 8 * i) 8 := by
  simp [frameOfBits]

/-- Shifting bytes in from the right: bit k of the result belongs to byte k / 8 from the end. -/
theorem shiftIn_getLsbD (l : List Byte) (acc : BitVec 192) {k : Nat} (hk : k < 192) :
    (l.foldl (fun (acc : BitVec 192) (b : Byte) => acc <<< 8 ||| b.setWidth 192) acc).getLsbD k =
      if h : k < 8 * l.length then (l[l.length - 1 - k / 8]'(by omega)).getLsbD (k % 8)
      else acc.getLsbD (k - 8 * l.length) := by
  induction l generalizing acc with
  | nil => simp
  | cons b l ih =>
    rw [List.foldl_cons, ih]
    by_cases h : k < 8 * l.length
    · have hl : (b :: l).length - 1 - k / 8 = (l.length - 1 - k / 8) + 1 := by simp; omega
      rw [dif_pos h, dif_pos (by simp; omega)]
      simp only [hl, List.getElem_cons_succ]
    · rw [dif_neg h, BitVec.getLsbD_or, BitVec.getLsbD_shiftLeft, BitVec.getLsbD_setWidth]
      by_cases h2 : k < 8 * (b :: l).length
      · rw [dif_pos h2]
        simp only [List.length_cons] at h2
        have e1 : (b :: l).length - 1 - k / 8 = 0 := by simp; omega
        have e2 : k % 8 = k - 8 * l.length := by omega
        have e3 : k - 8 * l.length < 8 := by omega
        simp only [e1, List.getElem_cons_zero, e2, e3]
        simp
        omega
      · rw [dif_neg h2]
        simp only [List.length_cons] at h2
        have e1 : ¬k - 8 * l.length < 8 := by omega
        have e2 : k - 8 * l.length - 8 = k - 8 * (b :: l).length := by simp; omega
        have e3 : b.getLsbD (k - 8 * l.length) = false := BitVec.getLsbD_of_ge _ _ (by omega)
        have e4 : k - 8 * l.length < 192 := by omega
        simp only [e1, decide_false, Bool.not_false, e3, Bool.and_false, Bool.or_false, e2, e4, decide_true,
          Bool.true_and]

/-- Bit k of frame_data is bit k % 8 of byte 23 - k / 8 (R34, bit by bit). -/
theorem frameBits_getLsbD (f : Frame) {k : Nat} (hk : k < 192) :
    (frameBits f).getLsbD k = (f[23 - k / 8]'(by omega)).getLsbD (k % 8) := by
  unfold frameBits
  rw [shiftIn_getLsbD _ _ hk, dif_pos (by simp; omega)]
  simp

/-- The selection without a byte or under reset does not look at the cursor. -/
theorem select_edge (cur : Cursor) (rst inValid : Bool) (x : Byte) :
    select cur (.edge rst inValid x) =
      if rst then .ctrl (if inValid then 3 else 2) else if inValid then .key (keyOf cur x) else .ctrl 0 := rfl

/-- A step that goes on ran one decoded operation on the state with its stimulus taken. -/
theorem step_next {s t : State} (h : step s = .next t) :
    ∃ i, decode s.cfg s.selector = .ok i ∧ exec i s.consume = .next t := by
  unfold step at h
  split at h
  · next i hi => exact ⟨i, hi, h⟩
  · simp at h

/-- A step that faults ran one decoded operation that faults. -/
theorem step_fault {s : State} {f : Fault} (h : step s = .fault f) :
    ∃ i, decode s.cfg s.selector = .ok i ∧ exec i s.consume = .fault f := by
  unfold step at h
  split at h
  · next i hi => exact ⟨i, hi, h⟩
  · simp at h

/-- A stream is fed one byte at a time. -/
theorem feedStream_cons (cfg : Config) (q : SyncState) (x : Byte) (xs : List Byte) :
    feedStream cfg q (x :: xs) =
      ((feedStream cfg (feed cfg q x).1 xs).1, (feed cfg q x).2 :: (feedStream cfg (feed cfg q x).1 xs).2) := rfl

/-- Every byte of a stream has one output. -/
theorem feedStream_length (cfg : Config) (q : SyncState) (xs : List Byte) :
    (feedStream cfg q xs).2.length = xs.length := by
  induction xs generalizing q with
  | nil => rfl
  | cons x xs ih => simp [feedStream_cons, ih]

end Sys2Proof.Machine
end

