-- ==== Sys2Proof/Laws/Feed.lean ====
section
/-! SUPPORT. Feed by the cases of 40_synchronizer.md R70, one lemma per case, and the cursor's advance. -/

namespace Sys2Proof.Machine

/-- State 0 (R60, R61). -/
theorem feed_cur_zero (cfg : Config) {q : SyncState} (x : Byte) (h : q.cur = 0) :
    feed cfg q x = if x = hdr0 then (⟨1, q.buf.write 0 x⟩, none) else (⟨0, q.buf⟩, none) := by
  unfold feed
  rw [if_pos h]

/-- State 1 (R59, R62, R63). -/
theorem feed_cur_one (cfg : Config) {q : SyncState} (x : Byte) (h : q.cur = 1) :
    feed cfg q x =
      if x = hdr1 then (⟨2, q.buf.write 1 x⟩, none)
      else if cfg.resyncRetest = true ∧ x = hdr0 then (⟨1, q.buf.write 0 x⟩, none)
      else (⟨0, q.buf⟩, none) := by
  unfold feed
  rw [if_neg (by rw [h]; decide), if_pos h]

/-- States 2 to 22 (R64). -/
theorem feed_cur_body (cfg : Config) {q : SyncState} (x : Byte) (h : 2 ≤ q.cur.toNat) (h' : q.cur.toNat ≤ 22) :
    feed cfg q x = (⟨q.cur + 1, q.buf.write q.cur.toNat x⟩, none) := by
  unfold feed
  rw [if_neg (by intro e; simp [e] at h), if_neg (by intro e; simp [e] at h), if_pos h']

/-- State 23 (R66). -/
theorem feed_cur_last (cfg : Config) {q : SyncState} (x : Byte) (h : q.cur = 23) :
    feed cfg q x = (⟨0, q.buf.write 23 x⟩, some (q.buf.write 23 x).frame) := by
  unfold feed
  simp [h]

/-- Cursors 24 to 31 (R67). -/
theorem feed_cur_illegal (cfg : Config) {q : SyncState} (x : Byte) (h : 24 ≤ q.cur.toNat) :
    feed cfg q x = (⟨0, q.buf⟩, none) := by
  unfold feed
  rw [if_neg (by intro e; simp [e] at h), if_neg (by intro e; simp [e] at h), if_neg (by omega),
    if_neg (by intro e; simp [e] at h)]

/-- The cursor advances without wrapping (R10). -/
theorem cursor_succ {c : Cursor} (h : c.toNat ≤ 22) : (c + 1).toNat = c.toNat + 1 := by
  rw [BitVec.toNat_add, show (1 : Cursor).toNat = 1 from rfl]
  omega

/-- The bytes of a frame taken from the buffer, in order. -/
theorem Memory.frame_toList (m : Memory) : m.frame.toList = (List.range 24).map m.read := by
  unfold Memory.frame
  refine List.ext_getElem (by simp) fun i h1 h2 => ?_
  simp

end Sys2Proof.Machine
end

