-- ==== Sys2Proof/Laws/Operands.lean ====
section
/-! SUPPORT. What the pieces of the IEEE 754 encoding can do: rounding to the nearest integer, and the binade of a
quotient. -/

namespace Sys2Proof.Machine

/-- The rounded quotient is within one half of a / b. -/
theorem roundNearestEven_near {b : Nat} (a : Nat) (hb : 0 < b) :
    2 * a ≤ (2 * roundNearestEven a b + 1) * b ∧ 2 * roundNearestEven a b * b ≤ 2 * a + b := by
  have hab := Nat.div_add_mod a b
  have hlt := Nat.mod_lt a hb
  have key : ∀ q r : Nat, b * q + r = a → r < b →
      (2 * r ≤ b → 2 * a ≤ (2 * q + 1) * b ∧ 2 * q * b ≤ 2 * a + b) ∧
      (b ≤ 2 * r → 2 * a ≤ (2 * (q + 1) + 1) * b ∧ 2 * (q + 1) * b ≤ 2 * a + b) := by
    intro q r h hr
    constructor <;> intro h2 <;> constructor <;> nlinarith
  have hk := key (a / b) (a % b) hab hlt
  unfold roundNearestEven
  dsimp only
  split
  · exact hk.1 (by omega)
  split
  · exact hk.2 (by omega)
  · rcases Nat.mod_two_eq_zero_or_one (a / b) with h | h <;> rw [h]
    · exact hk.1 (by omega)
    · exact hk.2 (by omega)

/-- Exactly half way, the rounded quotient is even. -/
theorem roundNearestEven_tie {a b : Nat} (h : 2 * (a % b) = b) : roundNearestEven a b % 2 = 0 := by
  unfold roundNearestEven
  dsimp only
  rw [if_neg (by omega), if_neg (by omega)]
  omega

/-- The quotient lies in its binade: 2^(e-4) <= num / den < 2^(e-3). -/
theorem binade_spec {num den : Nat} (hd : 0 < den) (h : den ≤ num * 2 ^ 4) :
    den * 2 ^ binade num den ≤ num * 2 ^ 4 ∧ num * 2 ^ 4 < den * 2 ^ (binade num den + 1) := by
  have hq : num * 2 ^ 4 / den ≠ 0 := by
    rw [Nat.div_ne_zero_iff]
    exact ⟨by omega, h⟩
  unfold binade
  constructor
  · exact (Nat.mul_le_mul_left den (Nat.log2_self_le hq)).trans (Nat.mul_div_le _ _)
  · have h2 := Nat.lt_log2_self (n := num * 2 ^ 4 / den)
    calc num * 2 ^ 4 < den * (num * 2 ^ 4 / den + 1) := by
          have := Nat.div_add_mod (num * 2 ^ 4) den
          have := Nat.mod_lt (num * 2 ^ 4) hd
          rw [Nat.mul_add]
          omega
      _ ≤ den * 2 ^ (Nat.log2 (num * 2 ^ 4 / den) + 1) := Nat.mul_le_mul_left den h2

end Sys2Proof.Machine
end

