-- ==== Sys2Proof/Laws/PerInstr.lean ====
section
/-! SUPPORT. A statement made per operation: a well-formed term encodes to bits that a row of the opcode table with its
own name covers (30_encoding.md R53). It says nothing about priorities, so nothing about what those bits decode to. -/

namespace Sys2Proof.Laws.RowCovers

/-- The row of the transition map that a term belongs to, if it is a key operation. -/
def keyOp : Instr → Option KeyOp
  | .hdr1Accept => some .hdr1Accept
  | .syncSkip _ => some .syncSkip
  | .hdr2Accept => some .hdr2Accept
  | .hdr2Retest => some .hdr2Retest
  | .hdr2Reject _ => some .hdr2Reject
  | .bodyStore _ _ => some .bodyStore
  | .lastStoreEmit _ => some .lastStoreEmit
  | .curIllegal _ _ => some .curIllegal
  | .idle | .reset _ => none
  | .extPm25 | .extTvoc | .extHcho | .extCo2 | .extTemp | .extHum => none

/-- A key operation's key is covered by a row of its own name; a control operation's word by its row's match and mask; a
decoder row has mask 0, which covers everything. -/
def Statement (i : Instr) : Prop :=
  ∀ cfg, i.wf cfg = true →
    match encode i with
    | .key k => ∃ r ∈ keyRows, some r.op = keyOp i ∧ r.present cfg = true ∧ r.covers k = true
    | .ctrl c => keyOp i = none ∧ ((i = .idle ∧ c &&& 3 = 0) ∨ (∃ v, i = .reset v) ∧ c &&& 2 = 2)
    | .field f => keyOp i = none ∧ i = decodeField f

theorem hdr1Accept : Statement .hdr1Accept := fun _ _ =>
  ⟨⟨.hdr1Accept, 0x0042, 0x1FFF, 1⟩, by simp [keyRows], rfl, rfl, rfl⟩

theorem syncSkip (x : Byte) : Statement (.syncSkip x) := fun _ _ =>
  ⟨⟨.syncSkip, 0x0000, 0x1F00, 2⟩, by simp [keyRows], rfl, rfl, by
    rw [KeyRow.covers_keyOf]; simp [keyCur, keyByte]⟩

theorem hdr2Accept : Statement .hdr2Accept := fun _ _ =>
  ⟨⟨.hdr2Accept, 0x014D, 0x1FFF, 1⟩, by simp [keyRows], rfl, rfl, rfl⟩

theorem hdr2Retest : Statement .hdr2Retest := fun cfg h =>
  ⟨⟨.hdr2Retest, 0x0142, 0x1FFF, 2⟩, by simp [keyRows], rfl, by simpa [KeyRow.present, Instr.wf] using h, rfl⟩

theorem hdr2Reject (x : Byte) : Statement (.hdr2Reject x) := fun _ _ =>
  ⟨⟨.hdr2Reject, 0x0100, 0x1F00, 3⟩, by simp [keyRows], rfl, rfl, by
    rw [KeyRow.covers_keyOf]; simp [keyCur, keyByte]⟩

/-- Every cursor in 2..22 is covered by one of the six pairs of BODY_STORE. -/
theorem bodyRow_covers : ∀ c : Cursor, 2 ≤ c.toNat ∧ c.toNat ≤ 22 →
    ∃ r ∈ keyRows, r.op = .bodyStore ∧ c &&& keyCur r.mask = keyCur r.mat ∧ keyByte r.mask = 0 ∧
      keyByte r.mat = 0 := by decide

theorem bodyStore (c : Cursor) (x : Byte) : Statement (.bodyStore c x) := by
  intro cfg h
  obtain ⟨r, hr, hop, hc, hm, hb⟩ := bodyRow_covers c (by simpa [Instr.wf] using h)
  exact ⟨r, hr, by rw [hop]; rfl, by rw [KeyRow.present, hop]; rfl, by
    rw [KeyRow.covers_keyOf, hc, hm, hb]; simp⟩

theorem lastStoreEmit (x : Byte) : Statement (.lastStoreEmit x) := fun _ _ =>
  ⟨⟨.lastStoreEmit, 0x1700, 0x1F00, 1⟩, by simp [keyRows], rfl, rfl, by
    rw [KeyRow.covers_keyOf]; simp [keyCur, keyByte]⟩

/-- A cursor in 24..31 has its two high bits set. -/
theorem illegal_cursor_bits : ∀ c : Cursor, 24 ≤ c.toNat → c &&& 0x18 = 0x18 := by decide

theorem curIllegal (c : Cursor) (x : Byte) : Statement (.curIllegal c x) := by
  intro cfg h
  refine ⟨⟨.curIllegal, 0x1800, 0x1800, 1⟩, by simp [keyRows], rfl, rfl, ?_⟩
  have hc := illegal_cursor_bits c (by simpa [Instr.wf] using h)
  rw [KeyRow.covers_keyOf]
  simpa [keyCur, keyByte] using hc

theorem idle : Statement .idle := fun _ _ => ⟨rfl, .inl ⟨rfl, rfl⟩⟩

theorem reset (v : Bool) : Statement (.reset v) := fun _ _ => by
  cases v <;> exact ⟨rfl, .inr ⟨⟨_, rfl⟩, rfl⟩⟩

theorem extPm25 : Statement .extPm25 := fun _ _ => ⟨rfl, rfl⟩

theorem extTvoc : Statement .extTvoc := fun _ _ => ⟨rfl, rfl⟩

theorem extHcho : Statement .extHcho := fun _ _ => ⟨rfl, rfl⟩

theorem extCo2 : Statement .extCo2 := fun _ _ => ⟨rfl, rfl⟩

theorem extTemp : Statement .extTemp := fun _ _ => ⟨rfl, rfl⟩

theorem extHum : Statement .extHum := fun _ _ => ⟨rfl, rfl⟩

end Sys2Proof.Laws.RowCovers
end

