-- ==== Sys2Proof/Laws/Run.lean ====
section
/-! SUPPORT. Runs of several steps, one step at a time, the induction over a run said once, and the small lemmas of the
terms of Safety.lean. -/

namespace Sys2Proof.Machine

@[simp] theorem run_zero (s : State) : Host.Core.run core 0 s = .next s := rfl

/-- A run goes on after a step that goes on. -/
theorem run_of_next {s t : State} (h : step s = .next t) (k : Nat) :
    Host.Core.run core (k + 1) s = Host.Core.run core k t := by
  have h' : core.step s = .next t := h
  simp only [Host.Core.run, h']

/-- A run that ends in a next state began with a step that goes on. -/
theorem run_next_inv {s t : State} {k : Nat} (h : Host.Core.run core (k + 1) s = .next t) :
    ∃ u, step s = .next u ∧ Host.Core.run core k u = .next t := by
  cases hs : step s with
  | next u => exact ⟨u, rfl, (run_of_next hs k).symm.trans h⟩
  | fault r =>
    have h' : core.step s = .fault r := hs
    simp [Host.Core.run, h'] at h
  | refused r =>
    have h' : core.step s = .refused r := hs
    simp [Host.Core.run, h'] at h

/-- What every step keeps, every run keeps. -/
theorem run_keeps {P : State → Prop} (hP : ∀ s t, P s → step s = .next t → P t) {k : Nat} {s t : State}
    (hs : P s) (h : Host.Core.run core k s = .next t) : P t := by
  induction k generalizing s with
  | zero => cases h; exact hs
  | succ k ih =>
    obtain ⟨u, hu, hr⟩ := run_next_inv h
    exact ih (hP s u hs hu) hr

@[simp] theorem emissions_zero (s : State) : emissions 0 s = [] := rfl

/-- The frames of a run are the first step's, then those of the rest. -/
theorem emissions_of_next {s t : State} (h : step s = .next t) (k : Nat) :
    emissions (k + 1) s = (emitted s t).toList ++ emissions k t := by
  simp only [emissions, h]

@[simp] theorem accepted_nil : accepted [] = [] := rfl

@[simp] theorem accepted_offered (x : Byte) (l : List (Bool × Byte)) :
    accepted ((true, x) :: l) = x :: accepted l := rfl

@[simp] theorem accepted_idle (x : Byte) (l : List (Bool × Byte)) : accepted ((false, x) :: l) = accepted l := rfl

/-- With cur = 0 no byte of a frame is stored. -/
theorem partialFrame_cur_zero {s : State} (h : s.cur = 0) : s.partialFrame = [] := by
  simp [State.partialFrame, h]

/-- The first n + 1 cells after x is stored at index n: the first n as they were, then x. -/
theorem map_read_write (m : Memory) (n : Nat) (x : Byte) :
    (List.range (n + 1)).map (m.write n x).read = (List.range n).map m.read ++ [x] := by
  rw [List.range_succ, List.map_append, List.map_singleton, Memory.read_write_same]
  congr 1
  refine List.map_congr_left fun a ha => Memory.read_write_other _ _ ?_
  have := List.mem_range.1 ha
  omega

end Sys2Proof.Machine
end

