-- ==== Sys2Proof/Tests/Slice0.lean ====
section
/-! SUPPORT. The model's own tests. Expected values are those of 95_test_vectors.md (named by their numbers there) or of
the rule named; none comes from the model. -/

namespace Sys2Proof.Tests

open Sys2Proof.Machine

/-! ## WellFormed: one ill-formed term per check -/

theorem test_wf_syncSkip_not_42 : (Instr.syncSkip 0x42).wf Config.default = false := by decide
theorem test_wf_hdr2Retest_needs_the_parameter : Instr.hdr2Retest.wf Config.default = false := by decide
theorem test_wf_hdr2Reject_not_4D : (Instr.hdr2Reject 0x4D).wf Config.default = false := by decide
theorem test_wf_hdr2Reject_not_42_with_retest : (Instr.hdr2Reject 0x42).wf Config.table = false := by decide
theorem test_wf_hdr2Reject_42 : (Instr.hdr2Reject 0x42).wf Config.default = true := by decide
theorem test_wf_bodyStore_not_1 : (Instr.bodyStore 1 0).wf Config.default = false := by decide
theorem test_wf_bodyStore_not_23 : (Instr.bodyStore 23 0).wf Config.default = false := by decide
theorem test_wf_bodyStore_2_and_22 :
    (Instr.bodyStore 2 0).wf Config.default = true ∧ (Instr.bodyStore 22 0).wf Config.default = true := by decide
theorem test_wf_curIllegal_not_23 : (Instr.curIllegal 23 0).wf Config.default = false := by decide

/-! ## Decoding: a word of each row, written out bit by bit from R51 and R53: K = {cur[4:0], byte[7:0]} -/

/-- What the decoder reads from a 13-bit key in the hardware of this spec. -/
def reads (k : Key) (i : Instr) : Bool := (decode Config.default (.key k)).toOption == some i

theorem test_decode_hdr1Accept : reads 0b00000_01000010 .hdr1Accept = true := by decide
theorem test_decode_syncSkip : reads 0b00000_11000010 (.syncSkip 0xC2) = true := by decide
theorem test_decode_hdr2Accept : reads 0b00001_01001101 .hdr2Accept = true := by decide
theorem test_decode_hdr2Reject : reads 0b00001_11001101 (.hdr2Reject 0xCD) = true := by decide
theorem test_decode_hdr2Reject_42 : reads 0b00001_01000010 (.hdr2Reject 0x42) = true := by decide
theorem test_decode_hdr2Retest :
    (decode Config.table (.key 0b00001_01000010)).toOption = some .hdr2Retest := by decide
theorem test_decode_bodyStore_3 : reads 0b00011_00000000 (.bodyStore 3 0x00) = true := by decide
theorem test_decode_bodyStore_7 : reads 0b00111_11111111 (.bodyStore 7 0xFF) = true := by decide
theorem test_decode_bodyStore_15 : reads 0b01111_10000000 (.bodyStore 15 0x80) = true := by decide
theorem test_decode_bodyStore_16 : reads 0b10000_00000001 (.bodyStore 16 0x01) = true := by decide
theorem test_decode_bodyStore_21 : reads 0b10101_01000010 (.bodyStore 21 0x42) = true := by decide
theorem test_decode_bodyStore_22 : reads 0b10110_01001101 (.bodyStore 22 0x4D) = true := by decide
theorem test_decode_lastStoreEmit : reads 0b10111_01000010 (.lastStoreEmit 0x42) = true := by decide
theorem test_decode_curIllegal_24 : reads 0b11000_01000010 (.curIllegal 24 0x42) = true := by decide
theorem test_decode_curIllegal_31 : reads 0b11111_11111111 (.curIllegal 31 0xFF) = true := by decide
theorem test_decode_idle : (decode Config.default (.ctrl 0b00)).toOption = some .idle := by decide
theorem test_decode_reset :
    (decode Config.default (.ctrl 0b10)).toOption = some (.reset false) ∧
    (decode Config.default (.ctrl 0b11)).toOption = some (.reset true) := by decide
theorem test_decode_offered_byte_is_no_control_word :
    (decode Config.default (.ctrl 0b01)).toOption = none := by decide

/-! ## The opcode table's words, decoded and run as the first operation after reset -/

/-- The next state satisfies p. -/
def nextIs (o : Host.Outcome State Fault Refusal) (p : State → Bool) : Bool :=
  match o with
  | .next t => p t
  | _ => false

/-- The word decodes to i, and step takes it as the first operation after reset and goes on. -/
def runsFirst (nbits w : Nat) (i : Instr) : Bool :=
  let s := State.reset.withFetchWord nbits w
  decodeTableWord nbits w == some i && (decode s.cfg s.selector).toOption == some i && nextIs (step s) fun _ => true

theorem test_table_hdr1Accept : runsFirst 16 0x0042 .hdr1Accept = true := by decide
theorem test_table_syncSkip : runsFirst 16 0x0000 (.syncSkip 0) = true := by decide
theorem test_table_hdr2Accept : runsFirst 16 0x014D .hdr2Accept = true := by decide
theorem test_table_hdr2Retest : runsFirst 16 0x0142 .hdr2Retest = true := by decide
theorem test_table_hdr2Reject : runsFirst 16 0x0100 (.hdr2Reject 0) = true := by decide
theorem test_table_bodyStore : runsFirst 16 0x0200 (.bodyStore 2 0) = true := by decide
theorem test_table_lastStoreEmit : runsFirst 16 0x1700 (.lastStoreEmit 0) = true := by decide
theorem test_table_curIllegal : runsFirst 16 0x1800 (.curIllegal 24 0) = true := by decide
theorem test_table_idle : runsFirst 8 0 .idle = true := by decide
theorem test_table_reset : runsFirst 8 2 (.reset false) = true := by decide
theorem test_table_frame : runsFirst 192 0 .extPm25 = true ∧ runsFirst 0 0 .extPm25 = true := by decide

/-! ## One step of each operation -/

/-- A small state: cursor c, one stimulus pending, cell 5 of the buffer holding 0x77, the strobe high. -/
def small (c : Cursor) (e : Stimulus) : State :=
  { State.reset with cur := c, pending := [e], buf := [(5, 0x77)], frameHeld := true, frameValid := true }

/-- A byte offered at an edge. -/
def byte (x : Byte) : Stimulus := .edge false true x

/-- T1. -/
theorem test_step_hdr1Accept : nextIs (step (small 0 (byte 0x42))) (fun t =>
    t.cur == 1 && t.buf.read 0 == 0x42 && t.buf.read 5 == 0x77 && !t.frameValid) = true := by decide
/-- T2. -/
theorem test_step_syncSkip : nextIs (step (small 0 (byte 0x4D))) (fun t =>
    t.cur == 0 && t.buf == [(5, 0x77)] && !t.frameValid) = true := by decide
/-- T7. -/
theorem test_step_hdr2Accept : nextIs (step (small 1 (byte 0x4D))) (fun t =>
    t.cur == 2 && t.buf.read 1 == 0x4D && !t.frameValid) = true := by decide
/-- T8: the 0x42 is discarded and not tested again. -/
theorem test_step_hdr2Reject : nextIs (step (small 1 (byte 0x42))) (fun t =>
    t.cur == 0 && t.buf == [(5, 0x77)]) = true := by decide
/-- T9. -/
theorem test_step_hdr2Retest : nextIs (step { small 1 (byte 0x42) with cfg := Config.table }) (fun t =>
    t.cur == 1 && t.buf.read 0 == 0x42) = true := by decide
/-- T14: 0x42 in the body is data. -/
theorem test_step_bodyStore : nextIs (step (small 2 (byte 0x42))) (fun t =>
    t.cur == 3 && t.buf.read 2 == 0x42) = true := by decide
/-- T21, and a stored byte overwritten by 0. -/
theorem test_step_bodyStore_22 : nextIs (step (small 22 (byte 0x4D))) (fun t =>
    t.cur == 23 && t.buf.read 22 == 0x4D) = true ∧
    nextIs (step (small 5 (byte 0x00))) (fun t => t.cur == 6 && t.buf == []) = true := by decide
/-- T23, K5. -/
theorem test_step_lastStoreEmit : nextIs (step { small 23 (byte 0x42) with frameHeld := false }) (fun t =>
    t.cur == 0 && t.frameQ[23] == 0x42 && t.frameQ[5] == 0x77 && t.buf.read 23 == 0x42 &&
    t.frameHeld && t.frameValid) = true := by decide
/-- T24, T25. -/
theorem test_step_curIllegal : nextIs (step (small 24 (byte 0x42))) (fun t =>
    t.cur == 0 && t.buf == [(5, 0x77)] && !t.frameValid) = true ∧
    nextIs (step (small 31 (byte 0xFF))) (fun t => t.cur == 0 && t.buf == [(5, 0x77)]) = true := by decide
/-- K1, K6. -/
theorem test_step_idle : nextIs (step (small 7 (.edge false false 0x42))) (fun t =>
    t.cur == 7 && t.buf == [(5, 0x77)] && !t.frameValid && t.frameHeld) = true := by decide
/-- K2. -/
theorem test_step_reset : nextIs (step (small 7 (.edge true false 0))) (fun t =>
    t.cur == 0 && !t.frameHeld && !t.frameValid) = true := by decide
/-- K3, K4: the byte offered under reset is not accepted. -/
theorem test_step_reset_wins : nextIs (step (small 0 (.edge true true 0x42))) (fun t => t.cur == 0) = true ∧
    nextIs (step (small 23 (.edge true true 0x00))) (fun t => t.cur == 0 && !t.frameValid) = true := by decide

/-- Frame A of L3 (F3 of L2.5), as frame_data (L2.5, last paragraph). -/
def frameA : Frame := frameOfBits 0x424D0014012C006400000A00019000FA028A000000000000

/-- A state that holds frame A, its ports about to be read. -/
def holdsA (f : Field) : State :=
  { State.reset with frameQ := frameA, frameHeld := true, frameValid := true, pending := [.sample f] }

/-- F3. -/
theorem test_step_extPm25 : nextIs (step (holdsA .pm25)) (fun t =>
    t.sampled.pm25 == .w16 299 && t.frameValid) = true := by decide
theorem test_step_extTvoc : nextIs (step (holdsA .tvoc)) (fun t => t.sampled.tvoc == .w16 100) = true := by decide
theorem test_step_extHcho : nextIs (step (holdsA .hcho)) (fun t => t.sampled.hcho == .w16 10) = true := by decide
theorem test_step_extCo2 : nextIs (step (holdsA .co2)) (fun t => t.sampled.co2 == .w16 399) = true := by decide
theorem test_step_extTemp : nextIs (step (holdsA .temp)) (fun t =>
    t.sampled.tempX10 == 250 && t.sampled.tempF == .binary32 0x41C80000) = true := by decide
theorem test_step_extHum : nextIs (step (holdsA .hum)) (fun t =>
    t.sampled.humX10 == 650 && t.sampled.humF == .binary32 0x42820000) = true := by decide
/-- F3 with FLOAT_FMT = binary64, F2's width rule with INT_OUT_WIDTH = 32 (L2.5, after the table). -/
theorem test_step_wide_lanes :
    nextIs (step { holdsA .temp with cfg := ⟨false, .binary64, .w32⟩ }) (fun t =>
      t.sampled.tempF == .binary64 0x4039000000000000) = true ∧
    nextIs (step { holdsA .pm25 with cfg := ⟨false, .binary64, .w32⟩ }) (fun t =>
      t.sampled.pm25 == .w32 299) = true := by decide
/-- R13: a read before any frame. -/
theorem test_step_read_before_frame :
    (match step { holdsA .pm25 with frameHeld := false } with
      | .fault .readBeforeFrame => true
      | _ => false) = true := by decide

/-! ## Primitives -/

/-- L2.3. -/
theorem test_w255 : w255 0x00 0xFF = 255 ∧ w255 0x01 0x00 = 255 ∧ w255 0x01 0x2C = 299 ∧
    w255 0x80 0x80 = 32768 ∧ w255 0xFE 0xFF = 65025 ∧ w255 0xFF 0xFF = 65280 := by decide
/-- L2.4, the hi lo and raw columns. -/
theorem test_w256 : w256 0x00 0x96 = 150 ∧ w256 0x0C 0xCC = 3276 ∧ w256 0x80 0x00 = 32768 ∧
    w256 0xFF 0xFF = 65535 := by decide

/-- The binary32 and binary64 columns of L2.4. -/
def encodes (raw b32 b64 : Nat) : Bool :=
  encodeRounded .binary32 raw 10 == b32 && encodeRounded .binary64 raw 10 == b64

/-- L2.4. -/
theorem test_scale10_small :
    encodes 0 0x00000000 0x0000000000000000 = true ∧ encodes 1 0x3DCCCCCD 0x3FB999999999999A = true ∧
    encodes 3 0x3E99999A 0x3FD3333333333333 = true ∧ encodes 5 0x3F000000 0x3FE0000000000000 = true ∧
    encodes 7 0x3F333333 0x3FE6666666666666 = true ∧ encodes 9 0x3F666666 0x3FECCCCCCCCCCCCD = true ∧
    encodes 10 0x3F800000 0x3FF0000000000000 = true := by decide
/-- L2.4. -/
theorem test_scale10_large :
    encodes 150 0x41700000 0x402E000000000000 = true ∧ encodes 251 0x41C8CCCD 0x403919999999999A = true ∧
    encodes 999 0x42C7CCCD 0x4058F9999999999A = true ∧ encodes 1001 0x42C83333 0x4059066666666666 = true ∧
    encodes 32767 0x454CCB33 0x40A9996666666666 = true ∧ encodes 32768 0x454CCCCD 0x40A999999999999A = true ∧
    encodes 65535 0x45CCCC00 0x40B9998000000000 = true := by decide
/-- F4: 255 from the pairs 00 FF and 01 00. -/
theorem test_decodeFields_f4 :
    decodeFields (frameOfBits 0x424D000000FF01000000FF000100009603E8000000000000) =
      ⟨255, 255, 255, 255, 150, 1000⟩ := by decide
/-- R34 with L2.5's last paragraph: frame_data[159:152] is byte 4. -/
theorem test_frameBits :
    frameBits frameA = 0x424D0014012C006400000A00019000FA028A000000000000 ∧ frameA[4] = 0x01 := by decide

/-! ## Witnesses: for every statement with hypotheses, a state and operands that meet all of them, clause by clause -/

/-- A state in the middle of a frame: header stored, cursor c, the stimuli e pending, no frame held. -/
def midFrame (c : Cursor) (e : List Stimulus) : State :=
  { State.reset with cur := c, buf := [(0, 0x42), (1, 0x4D)], pending := e }

/-- A transaction-level state at cursor c. -/
def syncAt (c : Cursor) : SyncState := ⟨c, [(0, 0x42), (1, 0x4D)]⟩

/-- The 22 body bytes of frame A. -/
def bodyA : List Byte :=
  [0x00, 0x14, 0x01, 0x2C, 0x00, 0x64, 0x00, 0x00, 0x0A, 0x00, 0x01, 0x90, 0x00, 0xFA, 0x02, 0x8A, 0, 0, 0, 0, 0, 0]

theorem witness_EveryStepKeepsTheInvariant :
    (midFrame 2 [byte 0x42]).Inv ∧ ∃ t, step (midFrame 2 [byte 0x42]) = .next t := ⟨by decide, _, rfl⟩

theorem witness_ReachableStatesHoldTheHeader :
    nextIs (Host.Core.run core 2 { State.reset with cfg := Config.default, pending := [byte 0x42, byte 0x4D] })
      (fun t => t.cur == 2) = true ∧
    nextIs (Host.Core.run core 24
        { State.reset with cfg := Config.default, pending := (0x42 :: 0x4D :: bodyA).map byte })
      (fun t => t.frameHeld) = true := by decide

theorem witness_SyncSkipDiscardsTheByte :
    (small 0 (byte 0x4D)).cur = 0 ∧ (0x4D : Byte) ≠ 0x42 ∧ (small 0 (byte 0x4D)).pending = .edge false true 0x4D :: [] ∧
    (∀ y ∈ ([0x00, 0x4D, 0xFF] : List Byte), y ≠ 0x42) := by decide

theorem witness_HeaderByteOneIsAccepted :
    (small 0 (byte 0x42)).cur = 0 ∧ (small 0 (byte 0x42)).pending = .edge false true 0x42 :: [] := by decide

theorem witness_HeaderByteTwoIsAccepted :
    (small 1 (byte 0x4D)).cur = 1 ∧ (small 1 (byte 0x4D)).pending = .edge false true 0x4D :: [] ∧
    bodyA.length = 22 := by decide

theorem witness_FailedHeaderIsAbandoned :
    (small 1 (byte 0x42)).cur = 1 ∧ (0x42 : Byte) ≠ 0x4D ∧
    ((small 1 (byte 0x42)).cfg.resyncRetest = true → (0x42 : Byte) ≠ 0x42) ∧
    (small 1 (byte 0x42)).pending = .edge false true 0x42 :: [] ∧
    (small 1 (byte 0x42)).cfg.resyncRetest = false := by decide

theorem witness_RetestedHeaderByteStartsAgain :
    ({ small 1 (byte 0x42) with cfg := Config.table } : State).cur = 1 ∧
    ({ small 1 (byte 0x42) with cfg := Config.table } : State).cfg.resyncRetest = true ∧
    ({ small 1 (byte 0x42) with cfg := Config.table } : State).pending = .edge false true 0x42 :: [] ∧
    bodyA.length = 22 ∧
    (small 1 (byte 0x42)).cur = 1 ∧ (small 1 (byte 0x42)).cfg.resyncRetest = false := by decide

theorem witness_BodyByteIsStored :
    2 ≤ (small 2 (byte 0x42)).cur.toNat ∧ (small 2 (byte 0x42)).cur.toNat ≤ 22 ∧
    (small 2 (byte 0x42)).pending = .edge false true 0x42 :: [] ∧
    2 ≤ (small 22 (byte 0x42)).cur.toNat ∧ (small 22 (byte 0x42)).cur.toNat ≤ 22 := by decide

theorem witness_BodyStoreOutsideItsRowStops :
    ((1 : Cursor).toNat < 2 ∨ 22 < (1 : Cursor).toNat) ∧ ((23 : Cursor).toNat < 2 ∨ 22 < (23 : Cursor).toNat) := by
  decide

theorem witness_IdleHoldsTheState :
    (small 7 (.edge false false 0x42)).pending = .edge false false 0x42 :: [] ∧
    (midFrame 7 ([0x4D, 0x42, 0x00].map (.edge false false ·))).pending =
      (0x4D :: [0x42, 0x00]).map (.edge false false ·) ++ [] := by decide

theorem witness_LastByteEmitsTheFrame :
    (midFrame 23 [byte 0x11]).cur = 23 ∧ (midFrame 23 [byte 0x11]).pending = .edge false true 0x11 :: [] ∧
    (midFrame 23 [byte 0x11]).headerStored := by decide

theorem witness_IllegalCursorReturnsToZero :
    24 ≤ (small 24 (byte 0x42)).cur.toNat ∧ (small 24 (byte 0x42)).pending = .edge false true 0x42 :: [] ∧
    24 ≤ (small 31 (byte 0xFF)).cur.toNat := by decide

theorem witness_ResetEdgeClearsTheBlock :
    (small 0 (.edge true true 0x42)).pending = .edge true true 0x42 :: [] ∧
    (small 7 (.edge true false 0)).pending = .edge true false 0 :: [] := by decide

theorem witness_ResetAbandonsThePartialFrame :
    (midFrame 5 (.edge true true 0x42 :: [(true, 0x42), (false, 0x4D)].map slot)).pending =
      .edge true true 0x42 :: [(true, 0x42), (false, 0x4D)].map slot ++ [] := by decide

theorem witness_ClockedStepFollowsFeed :
    (midFrame 5 [.edge true true 0x42]).pending = .edge true true 0x42 :: [] ∧
    (midFrame 23 [byte 0x42]).pending = .edge false true 0x42 :: [] ∧
    (midFrame 5 [.edge false false 0x42]).pending = .edge false false 0x42 :: [] := by decide

theorem witness_StepRunsTheDecodedOperation :
    decode (small 2 (byte 0x42)).cfg (small 2 (byte 0x42)).selector = .ok (.bodyStore 2 0x42) ∧
    (small 2 (byte 0x42)).pending = byte 0x42 :: [] := ⟨rfl, rfl⟩

theorem witness_OnlyAReadBeforeAnyFrameFails :
    (holdsA .hum).pending = .sample .hum :: [] ∧ (holdsA .hum).admitted = true ∧
    ({ holdsA .hum with frameHeld := false } : State).pending = .sample .hum :: [] ∧
    ({ holdsA .hum with frameHeld := false } : State).admitted = false := by decide

theorem witness_FrameHeldIsSetByEmissionAndClearedByReset :
    (midFrame 23 [byte 0x42]).pending = byte 0x42 :: [] ∧ (∃ t, step (midFrame 23 [byte 0x42]) = .next t) ∧
    (midFrame 23 [byte 0x42]).frameHeld = false := ⟨rfl, ⟨_, rfl⟩, rfl⟩

theorem witness_FrameValidFollowsAnEmissionOnly :
    (midFrame 23 [byte 0x42]).pending = .edge false true 0x42 :: [] ∧
    ∃ t, step (midFrame 23 [byte 0x42]) = .next t := ⟨rfl, _, rfl⟩

theorem witness_FrameRegisterChangesOnlyAtEmission :
    (midFrame 23 [byte 0x42]).pending = byte 0x42 :: [] ∧ (∃ t, step (midFrame 23 [byte 0x42]) = .next t) ∧
    (small 4 (byte 0x42)).pending = byte 0x42 :: [] ∧ ∃ t, step (small 4 (byte 0x42)) = .next t :=
  ⟨rfl, ⟨_, rfl⟩, rfl, _, rfl⟩

/-- The buffer [(0, 0x42), (1, 0x4D), (9, 0x55)] differs from midFrame's above the cursor. -/
theorem witness_StaleBytesAreNeverShown :
    ∀ i < (midFrame 2 [byte 0x01]).cur.toNat,
      Memory.read [(0, 0x42), (1, 0x4D), (9, 0x55)] i = (midFrame 2 [byte 0x01]).buf.read i := by decide

theorem witness_OnlyTheStoredCellChanges :
    (∀ v, Instr.bodyStore 5 0x01 ≠ .reset v) ∧ (∃ t, exec (.bodyStore 5 0x01) (small 5 (byte 0x01)) = .next t) ∧
    storedCell (.bodyStore 5 0x01) ≠ some 6 := ⟨by decide, ⟨_, rfl⟩, by decide⟩

theorem witness_OperationsKeepWhatTheyDoNotWrite :
    (∃ t, exec .idle (small 5 (byte 0x01)) = .next t) ∧ ¬isExtractor .idle ∧ (∀ v, Instr.idle ≠ .reset v) ∧
    (∀ x, Instr.idle ≠ .lastStoreEmit x) ∧
    (∃ t, exec .extHum (holdsA .hum) = .next t) ∧ isExtractor .extHum :=
  ⟨⟨_, rfl⟩, fun ⟨f, h⟩ => by cases f <;> simp [decodeField] at h, by decide, by decide, ⟨_, rfl⟩, .hum, rfl⟩

theorem witness_ReadsHaveNoSideEffect : ∃ t, exec (decodeField .temp) (holdsA .temp) = .next t := ⟨_, rfl⟩

theorem witness_DecodeInvertsEncode :
    (Instr.hdr2Reject 0x42).wf Config.default = true ∧ Instr.hdr2Retest.wf Config.table = true ∧
    (Instr.bodyStore 22 0xFF).wf Config.default = true := by decide

theorem witness_EncodeInvertsDecode :
    decode Config.default (.key 0x16FF) = .ok (.bodyStore 22 0xFF) ∧
    decode Config.default (.ctrl 3) = .ok (.reset true) := ⟨rfl, rfl⟩

theorem witness_EachKeySelectsOneRowByPriority :
    ∃ r ∈ keyRows, r.present Config.default = true ∧ r.covers 0x0042 = true := by decide

theorem witness_SelectionFollowsCursorAndByte : (0 : Cursor).toNat ≤ 23 ∧ (23 : Cursor).toNat ≤ 23 := by decide

theorem witness_IntegerExtractorMultipliesBy255 : (0 : Byte).toNat ≤ 254 ∧ (254 : Byte).toNat ≤ 254 := by decide

theorem witness_FixedPointExtractorIsTheBigEndianWord : w256 0x00 0x96 = w256 0x00 0x96 := rfl

theorem witness_FloatLanesAreCorrectlyRounded :
    0x45CCCC00 < (2 * expBias .binary32 + 1) * 2 ^ fracBits .binary32 := by decide

theorem witness_held : (holdsA .pm25).frameHeld = true := rfl

theorem witness_UndecodedBytesDoNotMatter :
    (∃ p, (holdsA .pm25).ports.frame = some p) ∧ 0 ∈ undecodedOffsets ∧ 23 ∈ undecodedOffsets ∧
    ∀ (i : Nat) (h : i < 24), i ∉ undecodedOffsets →
      (frameA)[i] = (frameOfBits 0x424DA5A5012C0064A5000AA5019000FA028AA5A5A5A5A5A5)[i] :=
  ⟨⟨_, rfl⟩, by decide⟩

theorem witness_FrameDataHasByteZeroOnTop :
    (holdsA .pm25).heldHeader ∧ ∃ p, (holdsA .pm25).ports.frame = some p := ⟨by decide, _, rfl⟩

theorem witness_RecordsOfOneFrameDifferOnlyInTimestamp : ∃ p, (holdsA .pm25).ports.frame = some p := ⟨_, rfl⟩

/-- The first and the last byte of a stream. -/
theorem witness_StreamsCompose :
    ([0x42, 0x4D, 0x11] : List Byte)[0]? = some 0x42 ∧ ([0x42, 0x4D, 0x11] : List Byte)[2]? = some 0x11 := by decide

/-- P1's frame A: emitted at byte 23 from state 0. -/
theorem witness_EmittedFrameIsTheLast24Bytes :
    (syncAt 0).cur = 0 ∧
    (feedStream Config.default (syncAt 0) (0x42 :: 0x4D :: bodyA)).2[23]? = some (some frameA) := by decide

/-- A body byte, and the byte that emits. -/
theorem witness_StoredBytesAreTheLastAccepted :
    (midFrame 0 []).cur = 0 ∧ (midFrame 2 [byte 0x11]).partialFrame <:+ [0x00, 0x42, 0x4D] ∧
    (∃ t, step (midFrame 2 [byte 0x11]) = .next t) ∧
    (midFrame 23 [byte 0x11]).partialFrame <:+ 0x42 :: 0x4D :: List.replicate 21 0 ∧
    ∃ t f, step (midFrame 23 [byte 0x11]) = .next t ∧ emitted (midFrame 23 [byte 0x11]) t = some f :=
  ⟨rfl, by decide, ⟨_, rfl⟩, by decide, _, _, rfl, rfl⟩

theorem witness_NoHeaderNoFrame :
    (midFrame 0 ([(true, 0x42), (false, 0x4D), (true, 0x00)].map slot)).cur = 0 ∧
    (midFrame 0 ([(true, 0x42), (false, 0x4D), (true, 0x00)].map slot)).pending =
      [(true, 0x42), (false, 0x4D), (true, 0x00)].map slot ++ [] ∧
    ¬[0x42, 0x4D] <:+: accepted [(true, 0x42), (false, 0x4D), (true, 0x00)] ∧
    (syncAt 0).cur = 0 ∧ Config.default.resyncRetest = false ∧ (syncAt 2).cur = 2 := by decide

theorem witness_HeaderAndBodyEmitTheFrame : (syncAt 0).cur = 0 ∧ bodyA.length = 22 := by decide

theorem witness_IdleCyclesChangeNoFrame :
    (midFrame 0 ([(true, 0x42), (false, 0x11), (true, 0x4D)].map slot)).pending =
      [(true, 0x42), (false, 0x11), (true, 0x4D)].map slot ++ [] := by decide

theorem witness_SecondHeaderByteIsNotRetested :
    (syncAt 0).cur = 0 ∧ Config.default.resyncRetest = false ∧ bodyA.length = 22 := by decide

/-- From state 22 the second byte emits, and 24 bytes later the frame A. -/
theorem witness_EmissionsAre24BytesApart :
    (∃ f, (feedStream Config.default (syncAt 22) (0x00 :: 0x00 :: 0x42 :: 0x4D :: bodyA)).2[1]? = some (some f)) ∧
    (∃ g, (feedStream Config.default (syncAt 22) (0x00 :: 0x00 :: 0x42 :: 0x4D :: bodyA)).2[25]? = some (some g)) ∧
    (1 < 25) ∧ (syncAt 0).cur = 0 ∧ bodyA.length = 22 :=
  ⟨⟨_, rfl⟩, ⟨_, rfl⟩, by decide, by decide, by decide⟩

theorem witness_BodyBytesAreDataWhateverTheyAre :
    2 ≤ (syncAt 2).cur.toNat ∧ (syncAt 2).cur.toNat ≤ 23 ∧ bodyA.length = 24 - (syncAt 2).cur.toNat ∧
    2 ≤ (syncAt 23).cur.toNat ∧ (syncAt 23).cur.toNat ≤ 23 ∧
    ([0x42] : List Byte).length = 24 - (syncAt 23).cur.toNat := by decide

theorem witness_LostOrExtraBytesShiftTheFrame :
    (syncAt 0).cur = 0 ∧ bodyA.tail.length = 21 ∧ bodyA.length = 22 ∧ ¬[0x42, 0x4D] <:+: bodyA := by decide

theorem witness_EchoedCommandIsTakenAsAFrame :
    (syncAt 0).cur = 0 ∧ (List.replicate 17 0 : List Byte).length = 17 := by decide

end Sys2Proof.Tests
end

section
/-! The decoder of the transition map by the cursor of the key (30_encoding.md R53, R69; 40_synchronizer.md R67): the
operation of every key {c, x}, one lemma per group of cursors. -/

namespace Sys2Proof

/-- The first present row that covers the key {c, x} names the operation, with c and x as its operands. -/
theorem decodeKey_of_find {cfg : Config} {c : Cursor} {x : Byte} {r : KeyRow}
    (h : keyRows.find? (fun r => r.present cfg && r.covers (keyOf c x)) = some r) :
    decodeKey cfg (keyOf c x) = .ok (r.op.instr c x) := by
  unfold decodeKey
  rw [h]
  simp only [keyCur_keyOf, keyByte_keyOf]

/-- Where all rows that cover a cursor have one name, and one of them covers the key, the key decodes to that name. -/
theorem decodeKey_of_op {cfg : Config} {c : Cursor} {x : Byte} {op : KeyOp}
    (covered : ∃ r ∈ keyRows, some r.op = some op ∧ r.present cfg = true ∧ r.covers (keyOf c x) = true)
    (only : ∀ r ∈ keyRows, c &&& keyCur r.mask = keyCur r.mat → r.op = op) :
    decodeKey cfg (keyOf c x) = .ok (op.instr c x) := by
  obtain ⟨r, hr, -, hp, hc⟩ := covered
  cases found : keyRows.find? (fun r => r.present cfg && r.covers (keyOf c x)) with
  | none => simpa [hp, hc] using List.find?_eq_none.1 found r hr
  | some r =>
    have h := List.find?_some found
    simp only [KeyRow.covers_keyOf, Bool.and_eq_true, beq_iff_eq] at h
    rw [decodeKey_of_find found, only r (List.mem_of_find?_eq_some found) h.2.1]

/-- A byte under the full mask is that byte. -/
theorem byte_and_full (x : Byte) : x &&& 0xFF#8 = x := BitVec.and_allOnes

/-- State 0: R61 for 0x42, R60 for every other byte. -/
theorem decodeKey_cur_zero (cfg : Config) (x : Byte) :
    decodeKey cfg (keyOf 0 x) = .ok (if x = hdr0 then .hdr1Accept else .syncSkip x) := by
  unfold hdr0
  by_cases hx : x = 0x42
  · subst hx
    cases cfg
    rfl
  · rw [if_neg hx]
    refine decodeKey_of_find (r := ⟨.syncSkip, 0x0000, 0x1F00, 2⟩) ?_
    simpa [keyRows, KeyRow.present, KeyRow.covers_keyOf, keyCur, keyByte, byte_and_full] using hx

/-- State 1: R62 for 0x4D, R59 for 0x42 in a build with RESYNC_RETEST, R63 for every other byte. -/
theorem decodeKey_cur_one (cfg : Config) (x : Byte) :
    decodeKey cfg (keyOf 1 x) = .ok (
      if x = hdr1 then .hdr2Accept
      else if cfg.resyncRetest = true ∧ x = hdr0 then .hdr2Retest
      else .hdr2Reject x) := by
  unfold hdr0 hdr1
  by_cases hx : x = 0x4D
  · subst hx
    cases cfg
    rfl
  by_cases hr : cfg.resyncRetest = true ∧ x = 0x42
  · rw [if_neg hx, if_pos hr]
    refine decodeKey_of_find (r := ⟨.hdr2Retest, 0x0142, 0x1FFF, 2⟩) ?_
    simp [keyRows, KeyRow.present, KeyRow.covers_keyOf, keyCur, keyByte, byte_and_full, hr.1, hr.2]
  · rw [if_neg hx, if_neg hr]
    refine decodeKey_of_find (r := ⟨.hdr2Reject, 0x0100, 0x1F00, 3⟩) ?_
    have hr' : cfg.resyncRetest = false ∨ ¬x = 0x42 := by simpa [not_and_or, -not_and] using hr
    simpa [keyRows, KeyRow.present, KeyRow.covers_keyOf, keyCur, keyByte, byte_and_full] using And.intro hx hr'

/-- States 2 to 22: R64. -/
theorem decodeKey_cur_body (cfg : Config) {c : Cursor} (x : Byte) (h : 2 ≤ c.toNat) (h' : c.toNat ≤ 22) :
    decodeKey cfg (keyOf c x) = .ok (.bodyStore c x) := by
  have only : ∀ c : Cursor, 2 ≤ c.toNat → c.toNat ≤ 22 →
      ∀ r ∈ keyRows, c &&& keyCur r.mask = keyCur r.mat → r.op = .bodyStore := by decide
  exact decodeKey_of_op (Laws.RowCovers.bodyStore c x cfg (by simp [Instr.wf, h, h'])) (only c h h')

/-- State 23: R66. -/
theorem decodeKey_cur_last (cfg : Config) (x : Byte) : decodeKey cfg (keyOf 23 x) = .ok (.lastStoreEmit x) :=
  decodeKey_of_op (op := .lastStoreEmit) (Laws.RowCovers.lastStoreEmit x cfg rfl) (by decide)

/-- Cursors 24 to 31: R67. -/
theorem decodeKey_cur_illegal (cfg : Config) {c : Cursor} (x : Byte) (h : 24 ≤ c.toNat) :
    decodeKey cfg (keyOf c x) = .ok (.curIllegal c x) := by
  have only : ∀ c : Cursor, 24 ≤ c.toNat →
      ∀ r ∈ keyRows, c &&& keyCur r.mask = keyCur r.mat → r.op = .curIllegal := by decide
  exact decodeKey_of_op (Laws.RowCovers.curIllegal c x cfg (by simpa [Instr.wf] using h)) (only c h)

end Sys2Proof
end

section
/-! The step by its stimulus (40_synchronizer.md R77): one equation for each of reset edge, idle edge, edge with a byte
and read of a port, and the inversion of a step that goes on. An edge with a byte is Feed (R70) and the registers around
it. -/

namespace Sys2Proof.Machine

/-- The groups of cursor values that the rules tell apart (R59 to R67). -/
theorem cursor_cases (c : Cursor) :
    c = 0 ∨ c = 1 ∨ (2 ≤ c.toNat ∧ c.toNat ≤ 22) ∨ c = 23 ∨ 24 ≤ c.toNat := by
  revert c
  decide

/-- The state after the byte x is accepted (R77): cur and buf are Feed's; a frame that Feed puts out is loaded, held and
strobed; without one only the strobe falls. -/
def State.acceptByte (s : State) (x : Byte) : State :=
  { s with
    cur := (feed s.cfg s.sync x).1.cur
    buf := (feed s.cfg s.sync x).1.buf
    frameQ := (feed s.cfg s.sync x).2.getD s.frameQ
    frameHeld := (feed s.cfg s.sync x).2.isSome || s.frameHeld
    frameValid := (feed s.cfg s.sync x).2.isSome }

@[simp] theorem State.acceptByte_cur (s : State) (x : Byte) :
    (s.acceptByte x).cur = (feed s.cfg s.sync x).1.cur := rfl
@[simp] theorem State.acceptByte_buf (s : State) (x : Byte) :
    (s.acceptByte x).buf = (feed s.cfg s.sync x).1.buf := rfl
@[simp] theorem State.acceptByte_frameQ (s : State) (x : Byte) :
    (s.acceptByte x).frameQ = (feed s.cfg s.sync x).2.getD s.frameQ := rfl
@[simp] theorem State.acceptByte_frameHeld (s : State) (x : Byte) :
    (s.acceptByte x).frameHeld = ((feed s.cfg s.sync x).2.isSome || s.frameHeld) := rfl
@[simp] theorem State.acceptByte_frameValid (s : State) (x : Byte) :
    (s.acceptByte x).frameValid = (feed s.cfg s.sync x).2.isSome := rfl

/-- The operation that the key {cur, x} selects does to the state what Feed says. -/
theorem exec_decodeKey (s : State) (x : Byte) :
    ∃ i, decodeKey s.cfg (keyOf s.cur x) = .ok i ∧ exec i s = .next (s.acceptByte x) := by
  unfold State.acceptByte
  rcases cursor_cases s.cur with h | h | ⟨h, h'⟩ | h | h
  · rw [h, feed_cur_zero s.cfg x (q := s.sync) h]
    refine ⟨_, decodeKey_cur_zero s.cfg x, ?_⟩
    split
    · next hx => subst hx; rfl
    · rfl
  · rw [h, feed_cur_one s.cfg x (q := s.sync) h]
    refine ⟨_, decodeKey_cur_one s.cfg x, ?_⟩
    split
    · next hx => subst hx; rfl
    split
    · next hx => rw [hx.2]; rfl
    · rfl
  · rw [feed_cur_body s.cfg x (q := s.sync) h h']
    exact ⟨_, decodeKey_cur_body s.cfg x h h', if_pos ⟨h, h'⟩⟩
  · rw [h, feed_cur_last s.cfg x (q := s.sync) h]
    exact ⟨_, decodeKey_cur_last s.cfg x, rfl⟩
  · rw [feed_cur_illegal s.cfg x (q := s.sync) h]
    exact ⟨_, decodeKey_cur_illegal s.cfg x h, rfl⟩

/-- What the next step sees is the first pending stimulus. -/
theorem stimulus_of_pending {s : State} {e : Stimulus} {rest : List Stimulus} (h : s.pending = e :: rest) :
    s.stimulus = e := by
  simp [State.stimulus, h]

/-- A step runs the operation that the decoder reads. -/
theorem step_of_decode {s : State} {i : Instr} (h : decode s.cfg s.selector = .ok i) : step s = exec i s.consume := by
  simp only [step, h]

/-- A reset edge, whatever in_valid and in_byte are (R115). -/
theorem step_of_reset {s : State} {v : Bool} {x : Byte} (h : s.stimulus = .edge true v x) :
    step s = .next (s.consume.scramble.goto 0).clearFlags := by
  have hd : decode s.cfg s.selector = .ok (.reset v) := by
    rw [State.selector, h]
    cases v <;> rfl
  rw [step_of_decode hd]
  rfl

/-- An edge with no byte (R65). -/
theorem step_of_idle {s : State} {x : Byte} (h : s.stimulus = .edge false false x) :
    step s = .next s.consume.strobeLow := by
  have hd : decode s.cfg s.selector = .ok .idle := by
    rw [State.selector, h]
    rfl
  rw [step_of_decode hd]
  rfl

/-- An edge with a byte (R77). -/
theorem step_of_byte {s : State} {x : Byte} (h : s.stimulus = .edge false true x) :
    step s = .next (s.consume.acceptByte x) := by
  obtain ⟨i, hd, he⟩ := exec_decodeKey s.consume x
  rw [← he]
  refine step_of_decode ?_
  rw [State.selector, h]
  exact hd

/-- A read of a field's ports (R48). -/
theorem step_of_sample {s : State} {f : Field} (h : s.stimulus = .sample f) :
    step s = s.consume.readPorts (fieldRead s.consume f) := by
  rw [← exec_decodeField]
  refine step_of_decode ?_
  rw [State.selector, h]
  rfl

/-- What a step from s to t did with the stimulus e. -/
inductive StepCase (s t : State) (e : Stimulus) : Prop
  | reset (v : Bool) (x : Byte) (he : e = .edge true v x) (ht : t = (s.consume.scramble.goto 0).clearFlags)
  | idle (x : Byte) (he : e = .edge false false x) (ht : t = s.consume.strobeLow)
  | byte (x : Byte) (he : e = .edge false true x) (ht : t = s.consume.acceptByte x)
  | sample (f : Field) (he : e = .sample f) (held : s.frameHeld = true)
      (ht : t = { s.consume with sampled := fieldRead s.consume f s.frameQ })

/-- The inversion of a step that goes on. -/
theorem step_next_cases {s t : State} (h : step s = .next t) : StepCase s t s.stimulus := by
  cases hs : s.stimulus with
  | edge rst inValid x =>
    cases rst with
    | true =>
      rw [step_of_reset hs] at h
      exact .reset inValid x rfl (Host.Outcome.next.inj h).symm
    | false =>
      cases inValid with
      | true =>
        rw [step_of_byte hs] at h
        exact .byte x rfl (Host.Outcome.next.inj h).symm
      | false =>
        rw [step_of_idle hs] at h
        exact .idle x rfl (Host.Outcome.next.inj h).symm
  | sample f =>
    rw [step_of_sample hs, readPorts_next] at h
    exact .sample f rfl h.1 h.2

/-- The inversion of a step whose stimulus is named. -/
theorem step_cases_of_pending {s t : State} {e : Stimulus} {rest : List Stimulus} (hp : s.pending = e :: rest)
    (h : step s = .next t) : StepCase s t e :=
  stimulus_of_pending hp ▸ step_next_cases h

end Sys2Proof.Machine
end

section
/-! What Feed can do with a byte (40_synchronizer.md R70), said without the buffer's contents: no buffer cell has a
part in which case it is. -/

namespace Sys2Proof.Machine

/-- Feed discards the byte, or stores it at an index up to cur and moves the cursor behind it, or stores the last byte
and emits. A byte stored at 0 or 1 is the header's. -/
inductive FeedCase (cfg : Config) (c : Cursor) (x : Byte) : Prop
  | skip (hc : c ≠ 23) (h : ∀ m, feed cfg ⟨c, m⟩ x = (⟨0, m⟩, none))
  | store (i : Nat) (d : Cursor) (hc : c ≠ 23) (hi : i ≤ c.toNat) (hi' : i ≤ 22) (hd : d.toNat = i + 1)
      (h0 : i = 0 → x = hdr0) (h1 : i = 1 → x = hdr1)
      (h : ∀ m, feed cfg ⟨c, m⟩ x = (⟨d, m.write i x⟩, none))
  | emit (hc : c = 23) (h : ∀ m, feed cfg ⟨c, m⟩ x = (⟨0, m.write 23 x⟩, some (m.write 23 x).frame))

/-- Which case it is, by the groups of cursor values. -/
theorem feed_cases (cfg : Config) (c : Cursor) (x : Byte) : FeedCase cfg c x := by
  rcases cursor_cases c with rfl | rfl | ⟨h, h'⟩ | rfl | h
  · by_cases hx : x = hdr0
    · exact .store 0 1 (by decide) (by decide) (by decide) rfl (fun _ => hx) (by omega) fun m => by
        rw [feed_cur_zero cfg x rfl, if_pos hx]
    · exact .skip (by decide) fun m => by rw [feed_cur_zero cfg x rfl, if_neg hx]
  · by_cases hx : x = hdr1
    · exact .store 1 2 (by decide) (by decide) (by decide) rfl (by omega) (fun _ => hx) fun m => by
        rw [feed_cur_one cfg x rfl, if_pos hx]
    by_cases hr : cfg.resyncRetest = true ∧ x = hdr0
    · exact .store 0 1 (by decide) (by decide) (by decide) rfl (fun _ => hr.2) (by omega) fun m => by
        rw [feed_cur_one cfg x rfl, if_neg hx, if_pos hr]
    · exact .skip (by decide) fun m => by rw [feed_cur_one cfg x rfl, if_neg hx, if_neg hr]
  · have hc : c ≠ 23 := by rintro rfl; simp at h'
    exact .store c.toNat (c + 1) hc le_rfl h' (cursor_succ h') (by omega) (by omega) fun m => feed_cur_body cfg x h h'
  · exact .emit rfl fun m => feed_cur_last cfg x rfl
  · have hc : c ≠ 23 := by rintro rfl; simp at h
    exact .skip hc fun m => feed_cur_illegal cfg x h

/-- Feed emits exactly in state 23, and the frame is the buffer with the byte at 23 (R66). -/
theorem feed_output (cfg : Config) (q : SyncState) (x : Byte) :
    (feed cfg q x).2 = if q.cur = 23 then some (q.buf.write 23 x).frame else none := by
  obtain ⟨c, m⟩ := q
  cases feed_cases cfg c x with
  | skip hc h => rw [h, if_neg hc]
  | store i d hc _ _ _ _ _ h => rw [h, if_neg hc]
  | emit hc h => rw [h, if_pos hc]

/-- Frames of buffers that read alike below 24 are equal. -/
theorem Memory.frame_congr {m n : Memory} (h : ∀ i < 24, n.read i = m.read i) : n.frame = m.frame :=
  Vector.ext fun i hi => by rw [frame_getElem n hi, frame_getElem m hi, h i hi]

/-- The same write leaves two buffers alike below the written cell, and makes that cell alike. -/
theorem Memory.read_write_congr {m n : Memory} {k i : Nat} (x : Byte) (h : ∀ j < k, n.read j = m.read j)
    (hi : i ≤ k) : ∀ j < i + 1, (n.write i x).read j = (m.write i x).read j := by
  intro j hj
  rw [read_write, read_write]
  split
  · rfl
  · exact h j (by omega)

/-- R19 for Feed: from buffers that agree below cur it goes to the same cursor, gives the same output, and leaves
buffers that agree below the new cursor. -/
theorem feed_ignores_stale (cfg : Config) (c : Cursor) (x : Byte) {m n : Memory}
    (agree : ∀ i < c.toNat, n.read i = m.read i) :
    (feed cfg ⟨c, n⟩ x).1.cur = (feed cfg ⟨c, m⟩ x).1.cur ∧ (feed cfg ⟨c, n⟩ x).2 = (feed cfg ⟨c, m⟩ x).2 ∧
    ∀ i < (feed cfg ⟨c, m⟩ x).1.cur.toNat,
      (feed cfg ⟨c, n⟩ x).1.buf.read i = (feed cfg ⟨c, m⟩ x).1.buf.read i := by
  cases feed_cases cfg c x with
  | skip _ h => simp [h]
  | store i d _ hi _ hd _ _ h =>
    simp only [h, hd, true_and]
    exact Memory.read_write_congr x agree hi
  | emit hc h =>
    subst hc
    simp only [h, true_and]
    exact ⟨congrArg some (Memory.frame_congr (Memory.read_write_congr x agree le_rfl)), by simp⟩

end Sys2Proof.Machine
end

section
/-! The invariant of 10_state.md R17, R18: it holds at reset, and every step keeps it. -/

namespace Sys2Proof.Machine

/-- With cur = 0 no header byte is confirmed. -/
theorem headerStored_of_cur_zero {s : State} (h : s.cur = 0) : s.headerStored := by
  simp [State.headerStored, h]

/-- A byte stored at an index up to cur, the header's bytes at 0 and 1, leaves the confirmed header bytes stored when
cur moves behind it. -/
theorem headerStored_after_store {s : State} (head : s.headerStored) {i : Nat} {d : Cursor} {x : Byte}
    (hi : i ≤ s.cur.toNat) (hd : d.toNat = i + 1) (h0 : i = 0 → x = hdr0) (h1 : i = 1 → x = hdr1) :
    ((s.storeByte i x).goto d).headerStored := by
  obtain ⟨head0, head1⟩ := head
  simp only [State.headerStored, State.goto_cur, State.goto_buf, State.storeByte_buf, Memory.read_write, hd]
  refine ⟨fun _ => ?_, fun _ => ?_⟩ <;> split
  · exact h0 (by omega)
  · exact head0 (by omega)
  · exact h1 (by omega)
  · exact head1 (by omega)

/-- A byte accepted keeps the invariant: Feed stores the header's bytes before it counts them. -/
theorem acceptByte_inv {s : State} (inv : s.Inv) (x : Byte) : (s.acceptByte x).Inv := by
  obtain ⟨-, head, held, strobe, wf⟩ := inv
  cases feed_cases s.cfg s.cur x with
  | skip _ h =>
    have hf : feed s.cfg s.sync x = (⟨0, s.buf⟩, none) := h s.buf
    refine ⟨by simp [State.cursorInRange, hf], headerStored_of_cur_zero (by simp [hf]), ?_, by simp [hf],
      by simpa [hf] using wf⟩
    simpa [State.heldHeader, hf] using held
  | store i d _ hi hi' hd h0 h1 h =>
    have hf : feed s.cfg s.sync x = (⟨d, s.buf.write i x⟩, none) := h s.buf
    have range' : d.toNat ≤ 23 := by omega
    have wf' := Memory.wf_write wf (show i < 24 by omega) x
    refine ⟨by simpa [State.cursorInRange, hf] using range', ?_, ?_, by simp [hf], by simpa [hf] using wf'⟩
    · simpa [State.headerStored, hf] using headerStored_after_store head hi hd h0 h1
    · simpa [State.heldHeader, hf] using held
  | emit hc h =>
    have hf : feed s.cfg s.sync x = (⟨0, s.buf.write 23 x⟩, some (s.buf.write 23 x).frame) := h s.buf
    have wf' := Memory.wf_write wf (show 23 < 24 by decide) x
    refine ⟨by simp [State.cursorInRange, hf], headerStored_of_cur_zero (by simp [hf]), ?_, by simp [hf],
      by simpa [hf] using wf'⟩
    have kept : s.buf.read 0 = hdr0 ∧ s.buf.read 1 = hdr1 := by simpa [State.headerStored, hc] using head
    simpa [State.heldHeader, hf, Memory.read_write] using kept

/-- Settles O3: a reset edge leaves nothing to hold, an idle edge and a read touch no register the invariant binds,
and a byte is Feed's. -/
theorem everyStepKeepsTheInvariant : Obligations.EveryStepKeepsTheInvariant := by
  intro s t inv h
  obtain ⟨range, head, held, strobe, wf⟩ := inv
  cases step_next_cases h with
  | reset v x _ ht =>
    subst ht
    exact ⟨by simp [State.cursorInRange], headerStored_of_cur_zero rfl, by simp [State.heldHeader], by simp,
      by simp [Memory.wf_ofBytes]⟩
  | idle x _ ht =>
    subst ht
    exact ⟨range, head, held, by simp, wf⟩
  | byte x _ ht =>
    subst ht
    exact acceptByte_inv (s := s.consume) ⟨range, head, held, strobe, wf⟩ x
  | sample f _ _ ht =>
    subst ht
    exact ⟨range, head, held, strobe, wf⟩

/-- The invariant at reset, in any build and with any stimuli to come. -/
theorem reset_inv (cfg : Config) (pending : List Stimulus) :
    ({ State.reset with cfg := cfg, pending := pending } : State).Inv :=
  ⟨Nat.zero_le _, headerStored_of_cur_zero rfl, by simp [State.heldHeader, State.reset], by simp [State.reset],
    Memory.wf_nil⟩

/-- Settles O2, the base case of O3. -/
theorem resetStateMeetsTheInvariant : Obligations.ResetStateMeetsTheInvariant :=
  reset_inv Config.default []

/-- Settles O4, by induction over the run: O3 is the step. -/
theorem reachableStatesHoldTheHeader : Obligations.ReachableStatesHoldTheHeader := by
  intro cfg pending k t h
  obtain ⟨range, ⟨head0, head1⟩, held, -, -⟩ := run_keeps everyStepKeepsTheInvariant (reset_inv cfg pending) h
  exact ⟨range, head0, head1, held⟩

/-- Settles O1: the fixed state, evaluated. -/
theorem resetStateHasTheSpecsValues : Obligations.ResetStateHasTheSpecsValues :=
  ⟨rfl, rfl, rfl, rfl⟩

end Sys2Proof.Machine
end

section
/-! Stale buffer cells (10_state.md R19). -/

namespace Sys2Proof.Machine

/-- A byte accepted, over a buffer that agrees below cur: all but the buffer is the same, and the buffers agree below
the new cursor. -/
theorem acceptByte_ignores_stale (s : State) (x : Byte) {m : Memory}
    (agree : ∀ i < s.cur.toNat, m.read i = s.buf.read i) :
    ∃ n, ({ s with buf := m } : State).acceptByte x = { s.acceptByte x with buf := n } ∧
      ∀ i < (s.acceptByte x).cur.toNat, n.read i = (s.acceptByte x).buf.read i := by
  obtain ⟨hcur, hout, hbuf⟩ := feed_ignores_stale s.cfg s.cur x agree
  refine ⟨(feed s.cfg ⟨s.cur, m⟩ x).1.buf, ?_, hbuf⟩
  simp only [State.acceptByte, sync_eq, hcur, hout]

/-- Settles O22: the ports do not show the buffer, a reset edge replaces it, an idle edge and a read keep it, and a
byte is Feed's. -/
theorem staleBytesAreNeverShown : Obligations.StaleBytesAreNeverShown := by
  intro s m agree
  refine ⟨rfl, ?_⟩
  have same : ({ s with buf := m } : State).stimulus = s.stimulus := rfl
  cases hs : s.stimulus with
  | edge rst inValid x =>
    left
    cases rst with
    | true => exact ⟨_, _, step_of_reset hs, step_of_reset (same.trans hs), fun _ _ => rfl⟩
    | false =>
      cases inValid with
      | true =>
        obtain ⟨n, hn, hbuf⟩ := acceptByte_ignores_stale s.consume x agree
        exact ⟨_, n, step_of_byte hs, (step_of_byte (same.trans hs)).trans (congrArg _ hn), hbuf⟩
      | false => exact ⟨_, m, step_of_idle hs, step_of_idle (same.trans hs), agree⟩
  | sample f =>
    by_cases held : s.frameHeld = true
    · exact .inl ⟨_, m, (step_of_sample hs).trans (readPorts_next.2 ⟨held, rfl⟩),
        (step_of_sample (same.trans hs)).trans (readPorts_next.2 ⟨held, rfl⟩), agree⟩
    · have unheld : s.frameHeld = false := by simpa using held
      exact .inr ⟨_, (step_of_sample hs).trans (readPorts_fault.2 ⟨unheld, rfl⟩),
        (step_of_sample (same.trans hs)).trans (readPorts_fault.2 ⟨unheld, rfl⟩)⟩

end Sys2Proof.Machine
end

section
/-! How frame_held, frame_valid and frame_q move (10_state.md R12, R13, R14). -/

namespace Sys2Proof.Machine

/-- A byte accepted raises frame_valid exactly in state 23. -/
theorem acceptByte_frameValid_iff (s : State) (x : Byte) : (s.acceptByte x).frameValid = true ↔ s.cur = 23 := by
  rw [State.acceptByte_frameValid, feed_output]
  split <;> simp_all [State.sync]

/-- A byte accepted leaves frame_held 1 exactly in state 23 or where it was 1. -/
theorem acceptByte_frameHeld_iff (s : State) (x : Byte) :
    (s.acceptByte x).frameHeld = true ↔ s.cur = 23 ∨ s.frameHeld = true := by
  rw [← acceptByte_frameValid_iff s x]
  simp

/-- A byte accepted in state 23 loads the buffer with that byte at 23; in every other state frame_q stays. -/
theorem acceptByte_frameQ_eq (s : State) (x : Byte) :
    (s.acceptByte x).frameQ = if s.cur = 23 then (s.buf.write 23 x).frame else s.frameQ := by
  rw [State.acceptByte_frameQ, feed_output, sync_eq]
  split <;> rfl

/-- Settles O19: by the stimulus of the step; the reads of the second part are all one shared operation. -/
theorem frameHeldIsSetByEmissionAndClearedByReset : Obligations.FrameHeldIsSetByEmissionAndClearedByReset := by
  refine ⟨fun s t e rest hp h => ?_, fun s unheld => ⟨by simp [State.ports, unheld], fun f => ?_⟩⟩
  · cases step_cases_of_pending hp h with
    | reset v x he ht => subst he ht; simp
    | idle x he ht => subst he ht; simp
    | byte x he ht => subst he ht; simp [acceptByte_frameHeld_iff, -State.acceptByte_frameHeld]
    | sample f he held ht => subst he ht; simp
  · rw [exec_decodeField]
    exact readPorts_fault.2 ⟨unheld, rfl⟩

/-- Settles O20: of the three kinds of edge only a byte can raise the strobe, and then exactly in state 23. -/
theorem frameValidFollowsAnEmissionOnly : Obligations.FrameValidFollowsAnEmissionOnly := by
  intro s t rst inValid x rest hp h
  show t.frameValid = true ↔ _
  cases step_cases_of_pending hp h with
  | reset v y he ht => cases he; subst ht; simp
  | idle y he ht => cases he; subst ht; simp
  | byte y he ht =>
    cases he
    subst ht
    rw [acceptByte_frameValid_iff]
    simp
  | sample f he _ _ => cases he

/-- Settles O21: a byte in state 23 is the one stimulus but reset that loads frame_q. -/
theorem frameRegisterChangesOnlyAtEmission : Obligations.FrameRegisterChangesOnlyAtEmission := by
  intro s t e rest hp h
  cases step_cases_of_pending hp h with
  | reset v x he _ => exact .inl ⟨v, x, he⟩
  | idle x _ ht => exact .inr (.inr (by simp [ht]))
  | byte x he ht =>
    subst ht
    rw [acceptByte_frameQ_eq]
    by_cases hc : s.cur = 23
    · refine .inr (.inl ⟨x, he, hc, fun i hi => ?_⟩)
      simp [hc, Memory.read_write]
    · exact .inr (.inr (if_neg hc))
  | sample f _ _ ht => exact .inr (.inr (by simp [ht]))

end Sys2Proof.Machine
end

section
/-! What each operation changes and leaves unchanged (10_state.md R11 to R15; 20_memory.md R37, R38). -/

namespace Sys2Proof.Machine

/-- An operation whose selector is no field is no decoder row. -/
theorem not_isExtractor_of_encode {i : Instr} (h : ∀ f, encode i ≠ .field f) : ¬isExtractor i := by
  rintro ⟨f, rfl⟩
  exact h f (by cases f <;> rfl)

/-- What an operation that goes on did: a read of ports; a transition that stores nothing; one that stores a byte; the
emission; the reset. -/
inductive ExecCase (i : Instr) (s t : State) : Prop
  | read (f : Field) (hi : i = decodeField f) (ht : t = { s with sampled := fieldRead s f s.frameQ })
  | skip (c : Cursor) (hx : ¬isExtractor i) (idle : i = .idle → c = s.cur)
      (ht : t = { s with cur := c, frameValid := false })
  | store (a : Nat) (x : Byte) (c : Cursor) (hx : ¬isExtractor i) (hi : storedCell i = some a)
      (ht : t = { s with buf := s.buf.write a x, cur := c, frameValid := false })
  | emit (x : Byte) (hi : i = .lastStoreEmit x)
      (ht : t = ((((s.storeByte 23 x).loadFrame (s.buf.write 23 x).frame).goto 0).strobeHigh))
  | reset (v : Bool) (hi : i = .reset v) (ht : t = (s.scramble.goto 0).clearFlags)

/-- The inversion of the six decoder rows, by the read they share. -/
theorem exec_decodeField_case {f : Field} {s t : State} (h : exec (decodeField f) s = .next t) :
    ExecCase (decodeField f) s t := by
  rw [exec_decodeField, readPorts_next] at h
  exact .read f rfl h.2

/-- The inversion of an operation that goes on. -/
theorem exec_next_cases {i : Instr} {s t : State} (h : exec i s = .next t) : ExecCase i s t := by
  cases i with
  | hdr1Accept => exact .store 0 hdr0 1 (not_isExtractor_of_encode nofun) rfl (Host.Outcome.next.inj h).symm
  | syncSkip x => exact .skip 0 (not_isExtractor_of_encode nofun) nofun (Host.Outcome.next.inj h).symm
  | hdr2Accept => exact .store 1 hdr1 2 (not_isExtractor_of_encode nofun) rfl (Host.Outcome.next.inj h).symm
  | hdr2Retest => exact .store 0 hdr0 1 (not_isExtractor_of_encode nofun) rfl (Host.Outcome.next.inj h).symm
  | hdr2Reject x => exact .skip 0 (not_isExtractor_of_encode nofun) nofun (Host.Outcome.next.inj h).symm
  | bodyStore c x =>
    by_cases hc : 2 ≤ c.toNat ∧ c.toNat ≤ 22
    · have he : exec (.bodyStore c x) s = s.storeTo c.toNat x (c + 1) := if_pos hc
      rw [he] at h
      exact .store c.toNat x (c + 1) (not_isExtractor_of_encode nofun) rfl (Host.Outcome.next.inj h).symm
    · have he : exec (.bodyStore c x) s = .fault .keyOutsideRow := if_neg hc
      rw [he] at h
      cases h
  | lastStoreEmit x => exact .emit x rfl (Host.Outcome.next.inj h).symm
  | curIllegal c x => exact .skip 0 (not_isExtractor_of_encode nofun) nofun (Host.Outcome.next.inj h).symm
  | idle => exact .skip s.cur (not_isExtractor_of_encode nofun) (fun _ => rfl) (Host.Outcome.next.inj h).symm
  | reset v => exact .reset v rfl (Host.Outcome.next.inj h).symm
  | extPm25 => exact exec_decodeField_case (f := .pm25) h
  | extTvoc => exact exec_decodeField_case (f := .tvoc) h
  | extHcho => exact exec_decodeField_case (f := .hcho) h
  | extCo2 => exact exec_decodeField_case (f := .co2) h
  | extTemp => exact exec_decodeField_case (f := .temp) h
  | extHum => exact exec_decodeField_case (f := .hum) h

/-- Settles O23: a write leaves every other cell alone. -/
theorem onlyTheStoredCellChanges : Obligations.OnlyTheStoredCellChanges := by
  intro i s t noReset h a ha
  cases exec_next_cases h with
  | read f _ ht => rw [ht]
  | skip c _ _ ht => rw [ht]
  | store b x c _ hi ht =>
    rw [ht]
    exact Memory.read_write_other _ _ (by rintro rfl; exact ha hi)
  | emit x hi ht =>
    subst hi ht
    exact Memory.read_write_other _ _ (by rintro rfl; exact ha rfl)
  | reset v hi _ => exact absurd hi (noReset v)

/-- Settles O24: by what the operation did; which clause binds depends on whether it was a read. -/
theorem operationsKeepWhatTheyDoNotWrite : Obligations.OperationsKeepWhatTheyDoNotWrite := by
  intro i s t h
  cases exec_next_cases h with
  | read f hi ht =>
    have hx : isExtractor i := ⟨f, hi⟩
    subst ht
    simp [hx]
  | skip c hx idle ht =>
    subst ht
    simpa [hx] using idle
  | store a x c hx hi ht =>
    have hidle : i ≠ .idle := by rintro rfl; cases hi
    subst ht
    simp [hx, hidle]
  | emit x hi ht =>
    have hx : ¬isExtractor i := hi ▸ not_isExtractor_of_encode nofun
    subst hi ht
    simp [hx]
  | reset v hi ht =>
    have hx : ¬isExtractor i := hi ▸ not_isExtractor_of_encode nofun
    subst hi ht
    simp [hx]

end Sys2Proof.Machine
end

section
/-! Reads of the decoder's ports (20_memory.md R38 (c)): what the reader holds is no input of any port, so a read leaves
the ports alone and reading again gives the same. -/

namespace Sys2Proof.Machine

/-- Reading a field twice leaves the reader with what the first read gave. -/
theorem fieldRead_idem (s : State) (f : Field) (b : Frame) :
    fieldRead { s with sampled := fieldRead s f b } f b = fieldRead s f b := by
  cases f <;> rfl

/-- The ports do not show what the reader holds. -/
theorem ports_of_sampled (s : State) (l : Lanes) : ({ s with sampled := l } : State).ports = s.ports := rfl

/-- Settles O25: a decoder row is a read of ports, whose one effect is on sampled, and it is idempotent. -/
theorem readsHaveNoSideEffect : Obligations.ReadsHaveNoSideEffect := by
  intro f s t h
  rw [exec_decodeField, readPorts_next] at h
  obtain ⟨held, rfl⟩ := h
  refine ⟨rfl, ports_of_sampled s _, ?_⟩
  rw [exec_decodeField, readPorts_next, fieldRead_idem]
  exact ⟨held, rfl⟩

end Sys2Proof.Machine
end

section
/-! frame_data (20_memory.md R34): byte by byte, packed and unpacked, and as the ports show it. -/

namespace Sys2Proof.Machine

/-- Byte i of a frame stands at bits 191 - 8*i .. 184 - 8*i of its frame_data. -/
theorem frameBits_byte (f : Frame) {i : Nat} (h : i < 24) : (frameBits f).extractLsb' (184 - 8 * i) 8 = f[i] := by
  ext k hk
  have offset : (184 - 8 * i + k) / 8 = 23 - i := by omega
  have bit : (184 - 8 * i + k) % 8 = k := by omega
  have index : 23 - (23 - i) = i := by omega
  rw [BitVec.getElem_extractLsb', frameBits_getLsbD f (by omega)]
  simp only [offset, bit, index, BitVec.getLsbD_eq_getElem hk]

/-- Bytes 0 and 1 of a frame are the top 16 bits of its frame_data. -/
theorem frameBits_top (f : Frame) : (frameBits f).extractLsb' 176 16 = f[0] ++ f[1] := by
  rw [← frameBits_byte f (i := 0) (by decide), ← frameBits_byte f (i := 1) (by decide)]
  exact (BitVec.extractLsb'_append_extractLsb'_eq_extractLsb' (start₂ := 184) (start₁ := 176) (len₁ := 8) (len₂ := 8)
    rfl).symm

/-- Unpacking a packed frame gives it back. -/
@[simp] theorem frameOfBits_frameBits (f : Frame) : frameOfBits (frameBits f) = f :=
  Vector.ext fun i h => by rw [frameOfBits_getElem _ h, frameBits_byte f h]

/-- Packing an unpacked word gives it back. -/
@[simp] theorem frameBits_frameOfBits (w : BitVec 192) : frameBits (frameOfBits w) = w := by
  ext k hk
  have position : 184 - 8 * (23 - k / 8) + k % 8 = k := by omega
  rw [← BitVec.getLsbD_eq_getElem hk, frameBits_getLsbD _ hk, frameOfBits_getElem, BitVec.getLsbD_extractLsb',
    position, decide_eq_true (Nat.mod_lt k (by decide)), Bool.true_and, BitVec.getLsbD_eq_getElem hk]

/-- The ports that show a frame do so exactly while one is held, and they are functions of frame_q (R47, R48). -/
theorem ports_frame_eq_some {s : State} {p : FramePorts} :
    s.ports.frame = some p ↔ s.frameHeld = true ∧ p = ⟨frameBits s.frameQ, lanesOf s.cfg s.frameQ⟩ := by
  simp only [State.ports]
  split
  · next held => simp [held, eq_comm]
  · next unheld => simp [unheld]

/-- Settles O41: the bytes by position, the two inverses, and the two header bytes on top. -/
theorem frameDataHasByteZeroOnTop : Obligations.FrameDataHasByteZeroOnTop := by
  refine ⟨fun b i h => frameBits_byte b h, frameOfBits_frameBits, frameBits_frameOfBits, fun s p header hp => ?_⟩
  obtain ⟨held, rfl⟩ := ports_frame_eq_some.1 hp
  obtain ⟨head0, head1⟩ := header held
  refine ⟨rfl, ?_⟩
  rw [frameBits_top, head0, head1]
  rfl

end Sys2Proof.Machine
end

section
/-! Decoder and encoder are inverse to each other (30_encoding.md R51, R53, R56), key by key through the groups of
cursors. -/

namespace Sys2Proof

@[simp] theorem decode_key (cfg : Config) (k : Key) : decode cfg (.key k) = decodeKey cfg k := rfl

/-- A SYNC_SKIP term is a key of its row unless HDR1_ACCEPT takes the byte. -/
theorem wf_syncSkip {cfg : Config} {x : Byte} : (Instr.syncSkip x).wf cfg = true ↔ x ≠ hdr0 := by
  simp [Instr.wf]

/-- An HDR2_REJECT term is a key of its row unless HDR2_ACCEPT or a present HDR2_RETEST takes the byte. -/
theorem wf_hdr2Reject {cfg : Config} {x : Byte} :
    (Instr.hdr2Reject x).wf cfg = true ↔ x ≠ hdr1 ∧ ¬(cfg.resyncRetest = true ∧ x = hdr0) := by
  simp only [Instr.wf, Bool.and_eq_true, Bool.not_eq_true', ← Bool.not_eq_true, bne_iff_ne, beq_iff_eq]

/-- The cursors of BODY_STORE (R64). -/
theorem wf_bodyStore {cfg : Config} {c : Cursor} {x : Byte} :
    (Instr.bodyStore c x).wf cfg = true ↔ 2 ≤ c.toNat ∧ c.toNat ≤ 22 := by
  simp [Instr.wf]

/-- The cursors of CUR_ILLEGAL (R67). -/
theorem wf_curIllegal {cfg : Config} {c : Cursor} {x : Byte} :
    (Instr.curIllegal c x).wf cfg = true ↔ 24 ≤ c.toNat := by
  simp [Instr.wf]

/-- Settles O26, row by row: a key row's operands put the key into the row's own group of cursors, and well-formedness
keeps it from the rows of higher priority. -/
theorem decodeInvertsEncode : Obligations.DecodeInvertsEncode := by
  intro cfg i wf
  cases i with
  | hdr1Accept => exact decodeKey_cur_zero cfg hdr0
  | syncSkip x => exact (decodeKey_cur_zero cfg x).trans (by rw [if_neg (wf_syncSkip.1 wf)])
  | hdr2Accept => exact decodeKey_cur_one cfg hdr1
  | hdr2Retest => exact (decodeKey_cur_one cfg hdr0).trans (by rw [if_neg (by decide), if_pos ⟨wf, rfl⟩])
  | hdr2Reject x =>
    obtain ⟨hx, hr⟩ := wf_hdr2Reject.1 wf
    exact (decodeKey_cur_one cfg x).trans (by rw [if_neg hx, if_neg hr])
  | bodyStore c x =>
    obtain ⟨low, high⟩ := wf_bodyStore.1 wf
    exact decodeKey_cur_body cfg x low high
  | lastStoreEmit x => exact decodeKey_cur_last cfg x
  | curIllegal c x => exact decodeKey_cur_illegal cfg x (wf_curIllegal.1 wf)
  | idle => rfl
  | reset v => cases v <;> rfl
  | extPm25 | extTvoc | extHcho | extCo2 | extTemp | extHum => rfl

/-- Every key decodes to a well-formed operation whose encoding is that key. -/
theorem decodeKey_encodes (cfg : Config) (k : Key) :
    ∃ i, decodeKey cfg k = .ok i ∧ i.wf cfg = true ∧ encode i = .key k := by
  rw [← keyOf_keyCur_keyByte k]
  generalize keyCur k = c, keyByte k = x
  rcases Machine.cursor_cases c with rfl | rfl | ⟨low, high⟩ | rfl | high
  · refine ⟨_, decodeKey_cur_zero cfg x, ?_⟩
    split
    · next hx => subst hx; exact ⟨rfl, rfl⟩
    · next hx => exact ⟨wf_syncSkip.2 hx, rfl⟩
  · refine ⟨_, decodeKey_cur_one cfg x, ?_⟩
    split
    · next hx => subst hx; exact ⟨rfl, rfl⟩
    split
    · next hr => exact ⟨hr.1, by rw [hr.2]; rfl⟩
    · next hx hr => exact ⟨wf_hdr2Reject.2 ⟨hx, hr⟩, rfl⟩
  · exact ⟨_, decodeKey_cur_body cfg x low high, wf_bodyStore.2 ⟨low, high⟩, rfl⟩
  · exact ⟨_, decodeKey_cur_last cfg x, rfl, rfl⟩
  · exact ⟨_, decodeKey_cur_illegal cfg x high, wf_curIllegal.2 high, rfl⟩

/-- A control word that decodes is the encoding of a well-formed operation. -/
theorem decodeCtrl_encodes (cfg : Config) {c : Ctrl} {i : Instr} (h : decodeCtrl c = .ok i) :
    i.wf cfg = true ∧ encode i = .ctrl c := by
  have words : ∀ c : Ctrl, c = 0 ∨ c = 1 ∨ c = 2 ∨ c = 3 := by decide
  rcases words c with rfl | rfl | rfl | rfl <;> cases h <;> exact ⟨rfl, rfl⟩

/-- Settles O27, by the kind of the selector. -/
theorem encodeInvertsDecode : Obligations.EncodeInvertsDecode := by
  intro cfg sel i h
  cases sel with
  | ctrl c => exact decodeCtrl_encodes cfg h
  | key k =>
    obtain ⟨j, hd, wf, he⟩ := decodeKey_encodes cfg k
    obtain rfl : j = i := Except.ok.inj (hd.symm.trans h)
    exact ⟨wf, he⟩
  | field f => cases f <;> cases h <;> exact ⟨rfl, rfl⟩

/-- Settles O30: the fixed words, evaluated. -/
theorem specWordsDecode : Obligations.SpecWordsDecode :=
  ⟨rfl, rfl, rfl, rfl, rfl, rfl, rfl, rfl, rfl, rfl, rfl⟩

end Sys2Proof
end

section
/-! Priorities in the transition map (30_encoding.md R53): the decoder takes the first row that covers the key, and
rows that share a key stand in ascending priority. -/

namespace Sys2Proof

/-- Two rows that cover one key agree on the bits that both masks select. -/
theorem KeyRow.compatible_of_covers {r r' : KeyRow} {k : Key} (h : r.covers k = true) (h' : r'.covers k = true) :
    r.mat &&& r'.mask = r'.mat &&& r.mask := by
  simp only [KeyRow.covers, beq_iff_eq] at h h'
  rw [← h, ← h', BitVec.and_assoc, BitVec.and_assoc, BitVec.and_comm r.mask]

/-- Of two rows that can cover one key, the earlier has the smaller priority number. -/
theorem keyRows_ascending :
    keyRows.Pairwise fun r r' => r.mat &&& r'.mask = r'.mat &&& r.mask → r.priority < r'.priority := by decide

/-- The row the decoder takes comes before every other row that covers the key, in the list and by priority. -/
theorem priority_lt_of_find {cfg : Config} {k : Key} {r r' : KeyRow}
    (found : keyRows.find? (fun r => r.present cfg && r.covers k) = some r) (mem : r' ∈ keyRows)
    (present : r'.present cfg = true) (covers : r'.covers k = true) : r' = r ∨ r.priority < r'.priority := by
  obtain ⟨hr, before, after, split, skipped⟩ := List.find?_eq_some_iff_append.1 found
  have ascending := keyRows_ascending
  rw [split] at ascending mem
  rcases List.mem_append.1 mem with earlier | later
  · simpa [present, covers] using skipped r' earlier
  rcases List.mem_cons.1 later with same | later
  · exact .inl same
  · have follows := (List.pairwise_append.1 ascending).2.1
    exact .inr (List.rel_of_pairwise_cons follows later
      (KeyRow.compatible_of_covers (Bool.and_eq_true_iff.1 hr).2 covers))

/-- Some present row covers the key. -/
theorem keyRows_find_isSome (cfg : Config) (k : Key) :
    ∃ r, keyRows.find? (fun r => r.present cfg && r.covers k) = some r := by
  obtain ⟨i, hd, -⟩ := decodeKey_encodes cfg k
  unfold decodeKey at hd
  split at hd
  · next r found => exact ⟨r, found⟩
  · cases hd

/-- Settles O28: the row is the first one that covers the key. -/
theorem eachKeySelectsOneRowByPriority : Obligations.EachKeySelectsOneRowByPriority := by
  intro cfg k
  obtain ⟨r, found⟩ := keyRows_find_isSome cfg k
  have selected := List.find?_some found
  obtain ⟨present, covers⟩ := Bool.and_eq_true_iff.1 selected
  refine ⟨r, List.mem_of_find?_eq_some found, present, covers, ?_, fun r' => priority_lt_of_find found⟩
  rw [← keyOf_keyCur_keyByte k] at found
  simpa using decodeKey_of_find found

end Sys2Proof
end

section
/-! The selection of a step (40_synchronizer.md R77; 60_exceptions.md R103), and the operation that no selection
reaches. -/

namespace Sys2Proof.Machine

/-- Settles O17: the step by the decoded operation, the selector by the kind of stimulus. -/
theorem stepRunsTheDecodedOperation : Obligations.StepRunsTheDecodedOperation := by
  refine fun s => ⟨fun i h => step_of_decode h, fun e rest hp => ?_⟩
  rw [State.selector, stimulus_of_pending hp]
  cases e with
  | edge rst inValid x => cases rst <;> cases inValid <;> rfl
  | sample f => rfl

/-- Settles O54: the operand test of BODY_STORE fails, in exec and in well-formedness, and the decoder reads well-formed
terms only (O27). -/
theorem bodyStoreOutsideItsRowStops : Obligations.BodyStoreOutsideItsRowStops := by
  intro s c x outside
  have outside' : ¬(2 ≤ c.toNat ∧ c.toNat ≤ 22) := by omega
  have illFormed : ∀ cfg : Config, (Instr.bodyStore c x).wf cfg = false := fun cfg =>
    Bool.eq_false_iff.2 fun wf => outside' (wf_bodyStore.1 wf)
  refine ⟨if_neg outside', illFormed, fun cfg sel h => ?_⟩
  obtain ⟨wf, -⟩ := encodeInvertsDecode cfg sel _ h
  exact outside' (wf_bodyStore.1 wf)

end Sys2Proof.Machine
end

section
/-! The decoder's ports as they are read (30_encoding.md R48, R49; 41_decoder.md R83 to R88). -/

namespace Sys2Proof.Machine

/-- With a frame held, the read of a field completes with what its ports show. -/
theorem exec_decodeField_of_held {s : State} (held : s.frameHeld = true) (f : Field) :
    exec (decodeField f) s = .next { s with sampled := fieldRead s f s.frameQ } := by
  rw [exec_decodeField]
  exact readPorts_next.2 ⟨held, rfl⟩

/-- Settles O38: the six rows are reads of what the ports show. -/
theorem readsReturnWhatThePortsShow : Obligations.ReadsReturnWhatThePortsShow := by
  intro s held
  have read := exec_decodeField_of_held held
  exact ⟨_, ports_frame_eq_some.2 ⟨held, rfl⟩, read .pm25, read .tvoc, read .hcho, read .co2, read .temp, read .hum⟩

/-- The greatest value of W255 is that of two bytes 0xFF (R96). -/
theorem w255_le (hi lo : Byte) : w255 hi lo ≤ 65280 := by
  unfold w255 intMult
  omega

/-- A lane of either width carries a 16-bit value unchanged (R49). -/
theorem intLane_toNat (w : IntWidth) {v : Nat} (h : v < 2 ^ 16) : (intLane w v).toNat = v := by
  cases w with
  | w16 => exact Nat.mod_eq_of_lt h
  | w32 => exact Nat.mod_eq_of_lt (h.trans (by decide))

/-- A lane of either width carries a value of W255 unchanged (R49, R80). -/
@[simp] theorem intLane_w255_toNat (w : IntWidth) (hi lo : Byte) : (intLane w (w255 hi lo)).toNat = w255 hi lo :=
  intLane_toNat w ((w255_le hi lo).trans_lt (by decide))

/-- Settles O42: every integer lane carries a value of W255. -/
theorem integerWidthChangesNoValue : Obligations.IntegerWidthChangesNoValue := by
  intro cfg w b
  simp [lanesOf, pm25Of, tvocOf, hchoOf, co2Of, w255_le]

end Sys2Proof.Machine
end

section
/-! Past the header (40_synchronizer.md R64, R66): the bytes of a stream go to the buffer one behind the other, and the
last one emits. -/

namespace Sys2Proof.Machine

/-- A byte written at n follows the first n bytes of the buffer. -/
theorem Memory.range_read_write (m : Memory) (n : Nat) (x : Byte) :
    (List.range (n + 1)).map (m.write n x).read = (List.range n).map m.read ++ [x] := by
  have kept : ∀ i ∈ List.range n, (m.write n x).read i = m.read i := fun i hi =>
    Memory.read_write_other m x (List.mem_range.1 hi).ne
  rw [List.range_succ, List.map_append, List.map_congr_left kept]
  simp

/-- Settles O51, by induction over the remaining bytes: in state 23 the byte is the last; before it the byte is stored
and the cursor moves behind it. -/
theorem bodyBytesAreDataWhateverTheyAre : Obligations.BodyBytesAreDataWhateverTheyAre := by
  intro cfg q xs low high len
  induction xs generalizing q with
  | nil => simp only [List.length_nil] at len; omega
  | cons x xs ih =>
    rw [List.length_cons] at len
    rw [feedStream_cons]
    by_cases last : q.cur = 23
    · obtain rfl : xs = [] := List.eq_nil_of_length_eq_zero (by simpa [last] using len)
      rw [feed_cur_last cfg x last, last]
      refine ⟨_, ?_, rfl, rfl⟩
      rw [Memory.frame_toList]
      exact Memory.range_read_write q.buf 23 x
    · have body : q.cur.toNat ≤ 22 := by
        have : q.cur.toNat ≠ 23 := fun h => last (BitVec.eq_of_toNat_eq h)
        omega
      rw [feed_cur_body cfg x low body]
      have next := cursor_succ body
      generalize q.cur + 1 = d at next ⊢
      obtain ⟨f, bytes, outputs, cur⟩ :=
        ih ⟨d, q.buf.write q.cur.toNat x⟩ (show 2 ≤ d.toNat by omega) (show d.toNat ≤ 23 by omega)
          (show xs.length = 24 - d.toNat by omega)
      refine ⟨f, ?_, ?_, cur⟩
      · simpa [next, Memory.range_read_write] using bytes
      · have count : 23 - q.cur.toNat = 23 - d.toNat + 1 := by omega
        rw [outputs, count, List.replicate_succ, List.cons_append]

end Sys2Proof.Machine
end

section
/-! The clocked step around Feed (40_synchronizer.md R77). -/

namespace Sys2Proof.Machine

/-- Taking the first stimulus leaves the others pending. -/
theorem consume_of_pending {s : State} {e : Stimulus} {rest : List Stimulus} (hp : s.pending = e :: rest) :
    s.consume = { s with pending := rest } := by
  simp [State.consume, hp]

/-- A byte at which Feed emits nothing: Feed's cursor and buffer, and the strobe low. -/
theorem acceptByte_of_silent {s : State} {x : Byte} {q : SyncState} (hf : feed s.cfg s.sync x = (q, none)) :
    s.acceptByte x = { s with cur := q.cur, buf := q.buf, frameValid := false } := by
  simp [State.acceptByte, hf]

/-- A byte at which Feed emits: Feed's cursor and buffer, and its frame held and strobed. -/
theorem acceptByte_of_emission {s : State} {x : Byte} {q : SyncState} {f : Frame}
    (hf : feed s.cfg s.sync x = (q, some f)) :
    s.acceptByte x =
      { s with cur := q.cur, buf := q.buf, frameQ := f, frameHeld := true, frameValid := true } := by
  simp [State.acceptByte, hf]

/-- Settles O16, by the three kinds of edge; a byte by whether Feed emits. -/
theorem clockedStepFollowsFeed : Obligations.ClockedStepFollowsFeed := by
  intro s rest x
  refine ⟨fun v hp => ?_, fun hp => ?_, fun hp => ?_⟩
  · have h := step_of_reset (stimulus_of_pending hp)
    rw [consume_of_pending hp] at h
    exact ⟨_, _, _, h⟩
  · rw [step_of_byte (stimulus_of_pending hp), consume_of_pending hp]
    cases hf : feed s.cfg s.sync x with
    | mk q output =>
      cases output with
      | none => exact congrArg _ (acceptByte_of_silent hf)
      | some f => exact congrArg _ (acceptByte_of_emission hf)
  · rw [step_of_idle (stimulus_of_pending hp), consume_of_pending hp]
    rfl

end Sys2Proof.Machine
end

section
/-! The operations that a cursor and a byte select (40_synchronizer.md R60, R61, R64, R66, R67, R69): what the key decodes
to is O26 of the row's own operation, and the step runs it. -/

namespace Sys2Proof.Machine

/-- The key {cur, x} selects the well-formed operation it encodes. -/
theorem decode_of_encode {cfg : Config} {c : Cursor} {x : Byte} {i : Instr} (wf : i.wf cfg = true)
    (key : encode i = .key (keyOf c x)) : decode cfg (.key (keyOf c x)) = .ok i :=
  key ▸ decodeInvertsEncode cfg i wf

/-- A byte offered runs the operation that the key {cur, x} selects. -/
theorem step_of_key {s : State} {x : Byte} {rest : List Stimulus} {i : Instr}
    (hp : s.pending = .edge false true x :: rest) (hd : decode s.cfg (.key (keyOf s.cur x)) = .ok i) :
    step s = exec i { s with pending := rest } := by
  rw [← consume_of_pending hp]
  refine step_of_decode ?_
  rw [State.selector, stimulus_of_pending hp]
  exact hd

/-- Settles O29, by the groups of cursors. -/
theorem selectionFollowsCursorAndByte : Obligations.SelectionFollowsCursorAndByte := by
  intro cfg c x range
  rcases cursor_cases c with rfl | rfl | ⟨low, high⟩ | rfl | illegal
  · exact decodeKey_cur_zero cfg x
  · simp only [decodeKey_cur_one cfg x, and_comm (a := cfg.resyncRetest = true)]
    rfl
  · have h0 : c ≠ 0 := by rintro rfl; simp at low
    have h1 : c ≠ 1 := by rintro rfl; simp at low
    have h23 : c ≠ 23 := by rintro rfl; simp at high
    rw [decodeKey_cur_body cfg x low high, if_neg h0, if_neg h1, if_neg h23]
  · exact decodeKey_cur_last cfg x
  · omega

/-- Settles O6: in state 0 the byte 0x42 makes the row's key. -/
theorem headerByteOneIsAccepted : Obligations.HeaderByteOneIsAccepted := by
  intro s hc
  have key : keyOf s.cur 0x42 = 0x0042 := by rw [hc]; rfl
  have hd : decode s.cfg (.key (keyOf s.cur 0x42)) = .ok .hdr1Accept := decode_of_encode rfl (by rw [key]; rfl)
  exact ⟨rfl, key ▸ hd, key, fun rest hp => step_of_key hp hd⟩

/-- In state 0 a byte other than 0x42 leaves Feed where it is (R60). -/
theorem feed_discards (cfg : Config) {q : SyncState} {x : Byte} (hc : q.cur = 0) (hx : x ≠ hdr0) :
    feed cfg q x = (q, none) := by
  rw [feed_cur_zero cfg x hc, if_neg hx, ← hc]

/-- Settles O5; the stream by induction, each byte discarded. -/
theorem syncSkipDiscardsTheByte : Obligations.SyncSkipDiscardsTheByte := by
  intro s x hc hx
  have hd : decode s.cfg (.key (keyOf s.cur x)) = .ok (.syncSkip x) :=
    decode_of_encode (wf_syncSkip.2 hx) (by rw [hc]; rfl)
  refine ⟨rfl, hd, fun rest hp => step_of_key hp hd, fun xs hxs => ?_⟩
  induction xs with
  | nil => rfl
  | cons y ys ih =>
    obtain ⟨hy, hys⟩ := List.forall_mem_cons.1 hxs
    rw [feedStream_cons, feed_discards s.cfg hc hy, ih hys]
    rfl

/-- Settles O10: the row's cursors are the ones its meaning admits. -/
theorem bodyByteIsStored : Obligations.BodyByteIsStored := by
  intro s x low high
  have runs (t : State) : exec (.bodyStore s.cur x) t = t.storeTo s.cur.toNat x (s.cur + 1) := if_pos ⟨low, high⟩
  have hd : decode s.cfg (.key (keyOf s.cur x)) = .ok (.bodyStore s.cur x) :=
    decode_of_encode (wf_bodyStore.2 ⟨low, high⟩) rfl
  exact ⟨runs s, cursor_succ high, hd, fun rest hp => (step_of_key hp hd).trans (runs _)⟩

/-- Settles O12: the frame is the buffer with the last byte stored. -/
theorem lastByteEmitsTheFrame : Obligations.LastByteEmitsTheFrame := by
  intro s x hc
  have hd : decode s.cfg (.key (keyOf s.cur x)) = .ok (.lastStoreEmit x) :=
    decode_of_encode rfl (by rw [hc]; rfl)
  refine ⟨(s.buf.write 23 x).frame, fun i hi => ?_, rfl, hd, fun rest hp => step_of_key hp hd, fun header => ?_⟩
  · rw [Memory.frame_getElem _ hi, Memory.read_write]
  · obtain ⟨head0, head1⟩ := header
    simp only [Memory.frame_getElem, Memory.read_write]
    exact ⟨head0 (by simp [hc]), head1 (by simp [hc])⟩

/-- Settles O13: the row takes every key with such a cursor. -/
theorem illegalCursorReturnsToZero : Obligations.IllegalCursorReturnsToZero := by
  intro s x illegal
  have hd : decode s.cfg (.key (keyOf s.cur x)) = .ok (.curIllegal s.cur x) :=
    decode_of_encode (wf_curIllegal.2 illegal) rfl
  exact ⟨rfl, hd, fun rest hp => step_of_key hp hd⟩

end Sys2Proof.Machine
end

section
/-! Idle edges (40_synchronizer.md R65; 10_state.md R21). -/

namespace Sys2Proof.Machine

/-- An edge with no byte takes its stimulus and lowers the strobe (R65). -/
theorem step_of_idle_pending {s : State} {x : Byte} {rest : List Stimulus}
    (hp : s.pending = .edge false false x :: rest) : step s = .next { s with pending := rest, frameValid := false } :=
  (clockedStepFollowsFeed s rest x).2.2 hp

/-- Settles O11; the run by induction over the idle edges after the first. -/
theorem idleHoldsTheState : Obligations.IdleHoldsTheState := by
  refine fun s => ⟨rfl, fun x rest => step_of_idle_pending, fun x xs rest hp => ?_⟩
  induction xs generalizing s x with
  | nil => exact run_of_next (step_of_idle_pending hp) 0
  | cons y ys ih => exact (run_of_next (step_of_idle_pending hp) _).trans (ih _ y rfl)

end Sys2Proof.Machine
end

section
/-! A stream in pieces (40_synchronizer.md R71). -/

namespace Sys2Proof.Machine

@[simp] theorem feedStream_nil (cfg : Config) (q : SyncState) : feedStream cfg q [] = (q, []) := rfl

@[simp] theorem feedStream_singleton (cfg : Config) (q : SyncState) (x : Byte) :
    feedStream cfg q [x] = ((feed cfg q x).1, [(feed cfg q x).2]) := rfl

/-- The second piece is fed from the state that the first leaves. -/
theorem feedStream_append (cfg : Config) (q : SyncState) (xs ys : List Byte) :
    feedStream cfg q (xs ++ ys) =
      ((feedStream cfg (feedStream cfg q xs).1 ys).1,
        (feedStream cfg q xs).2 ++ (feedStream cfg (feedStream cfg q xs).1 ys).2) := by
  induction xs generalizing q with
  | nil => rfl
  | cons x xs ih => rw [List.cons_append, feedStream_cons, ih, feedStream_cons, List.cons_append]

/-- The outputs from byte n on are those of the rest of the stream, fed from the state that n bytes leave. -/
theorem feedStream_getElem?_add (cfg : Config) (q : SyncState) (xs : List Byte) {n : Nat} (hn : n ≤ xs.length)
    (i : Nat) :
    (feedStream cfg q xs).2[n + i]? = (feedStream cfg (feedStream cfg q (xs.take n)).1 (xs.drop n)).2[i]? := by
  have before : (feedStream cfg q (xs.take n)).2.length = n := by simp [feedStream_length, hn]
  conv_lhs => rw [← List.take_append_drop n xs, feedStream_append]
  rw [List.getElem?_append_right (by omega), before, Nat.add_sub_cancel_left]

/-- The output at byte i is Feed's, of that byte from the state that the bytes before it leave. -/
theorem feedStream_getElem? (cfg : Config) (q : SyncState) {xs : List Byte} {i : Nat} {x : Byte}
    (hx : xs[i]? = some x) :
    (feedStream cfg q xs).2[i]? = some (feed cfg (feedStream cfg q (xs.take i)).1 x).2 := by
  obtain ⟨hi, rfl⟩ := List.getElem?_eq_some_iff.1 hx
  have cut := feedStream_getElem?_add cfg q xs hi.le 0
  rw [List.drop_eq_getElem_cons hi] at cut
  exact cut

/-- A byte that has an output is a byte of the stream. -/
theorem getElem?_of_output {cfg : Config} {q : SyncState} {xs : List Byte} {i : Nat} {o : Option Frame}
    (h : (feedStream cfg q xs).2[i]? = some o) : ∃ x, xs[i]? = some x := by
  obtain ⟨hi, -⟩ := List.getElem?_eq_some_iff.1 h
  exact ⟨_, List.getElem?_eq_getElem (feedStream_length cfg q xs ▸ hi)⟩

/-- Settles O44: the last clause cuts the stream before and after byte i. -/
theorem streamsCompose : Obligations.StreamsCompose := by
  refine ⟨feedStream_nil, feedStream_singleton, fun cfg q xs ys => ?_, fun cfg q xs i x hx => ⟨?_, ?_⟩⟩
  · rw [feedStream_append]
    exact ⟨rfl, rfl⟩
  · rw [List.take_add_one, hx, feedStream_append]
    rfl
  · exact feedStream_getElem? cfg q hx

end Sys2Proof.Machine
end

section
/-! The stored bytes are the last bytes accepted (40_synchronizer.md R68; 10_state.md R11, R19): an invariant of
Feed, and so of a stream. -/

namespace Sys2Proof.Machine

/-- The bytes of the frame in progress: buf[0 .. cur-1] (State.partialFrame of the synchronizer alone). -/
def SyncState.stored (q : SyncState) : List Byte := (List.range q.cur.toNat).map q.buf.read

/-- The bytes a state has stored are its synchronizer's. -/
theorem State.partialFrame_eq (s : State) : s.partialFrame = s.sync.stored := rfl

/-- With cur = 0 nothing is stored. -/
theorem stored_cur_zero {q : SyncState} (hc : q.cur = 0) : q.stored = [] := by
  simp [SyncState.stored, hc]

/-- Feed starts again at 0 or 1, or advances the cursor by one. -/
theorem feed_cursor (cfg : Config) (q : SyncState) (x : Byte) :
    (feed cfg q x).1.cur.toNat ≤ 1 ∨ (feed cfg q x).1.cur.toNat = q.cur.toNat + 1 := by
  rcases cursor_cases q.cur with hc | hc | ⟨low, high⟩ | hc | illegal
  · rw [feed_cur_zero cfg x hc]
    split <;> simp
  · rw [feed_cur_one cfg x hc, hc]
    split
    · simp
    · split <;> simp
  · rw [feed_cur_body cfg x low high]
    exact .inr (cursor_succ high)
  · simp [feed_cur_last cfg x hc]
  · simp [feed_cur_illegal cfg x illegal]

/-- Feed keeps the stored bytes the last ones accepted, and a frame it emits is the last 24 bytes accepted. -/
theorem feed_keeps_stored (cfg : Config) {q : SyncState} {h : List Byte} (x : Byte) (stored : q.stored <:+ h) :
    (feed cfg q x).1.stored <:+ h ++ [x] ∧ ∀ f, (feed cfg q x).2 = some f → f.toList <:+ h ++ [x] := by
  have cursor := feed_cursor cfg q x
  obtain ⟨c, m⟩ := q
  cases feed_cases cfg c x with
  | skip _ hf => simp [hf, stored_cur_zero]
  | store i d _ _ _ hd _ _ hf =>
    have before : (List.range i).map m.read <:+ h := by
      have : i = 0 ∨ i = c.toNat := by simp only [hf, hd] at cursor; omega
      rcases this with rfl | rfl
      · simp
      · exact stored
    simp only [hf, SyncState.stored, hd, map_read_write]
    exact ⟨List.suffix_append_self_iff.2 before, nofun⟩
  | emit hc hf =>
    subst hc
    simp only [hf, stored_cur_zero, Option.some.injEq]
    refine ⟨by simp, ?_⟩
    rintro f rfl
    rw [Memory.frame_toList, map_read_write]
    exact List.suffix_append_self_iff.2 stored

/-- The same for a stream. -/
theorem feedStream_keeps_stored (cfg : Config) {q : SyncState} {h : List Byte} (xs : List Byte)
    (stored : q.stored <:+ h) : (feedStream cfg q xs).1.stored <:+ h ++ xs := by
  induction xs generalizing q h with
  | nil => simpa using stored
  | cons x xs ih => simpa [feedStream_cons] using ih (feed_keeps_stored cfg x stored).1

/-- Settles O45: the frame is a suffix of the first t + 1 bytes, and it has 24 bytes. -/
theorem emittedFrameIsTheLast24Bytes : Obligations.EmittedFrameIsTheLast24Bytes := by
  intro cfg q xs t f hc emits
  obtain ⟨x, hx⟩ := getElem?_of_output emits
  obtain ⟨ht, -⟩ := List.getElem?_eq_some_iff.1 hx
  have stored : (feedStream cfg q (xs.take t)).1.stored <:+ xs.take t :=
    feedStream_keeps_stored cfg (h := []) _ (by simp [stored_cur_zero hc])
  rw [feedStream_getElem? cfg q hx] at emits
  have suffix : f.toList <:+ xs.take (t + 1) := by
    rw [List.take_add_one, hx]
    exact (feed_keeps_stored cfg x stored).2 f (Option.some.inj emits)
  have length := suffix.length_le
  simp only [Vector.length_toList, List.length_take] at length
  refine ⟨by omega, ?_⟩
  rw [List.suffix_iff_eq_drop.1 suffix, List.drop_take]
  simp only [Vector.length_toList, List.length_take]
  congr 2 <;> omega

end Sys2Proof.Machine
end

section
/-! What a step emits (10_state.md R14), and the stored bytes as an invariant of the step (40_synchronizer.md R68). -/

namespace Sys2Proof.Machine

/-- What an edge with a byte emits is Feed's output. -/
theorem emitted_acceptByte {s : State} {x : Byte} (he : s.stimulus = .edge false true x) :
    emitted s (s.consume.acceptByte x) = (feed s.cfg s.sync x).2 := by
  have same : feed s.consume.cfg s.consume.sync x = feed s.cfg s.sync x := rfl
  simp only [emitted, he, State.acceptByte_frameValid, State.acceptByte_frameQ, same]
  cases (feed s.cfg s.sync x).2 <;> rfl

/-- A step that leaves the strobe low emits nothing. -/
theorem emitted_of_strobe_low {s t : State} (low : t.frameValid = false) : emitted s t = none := by
  unfold emitted
  split
  · simp [low]
  · rfl

/-- A read of a port emits nothing. -/
theorem emitted_of_sample {s t : State} {f : Field} (he : s.stimulus = .sample f) : emitted s t = none := by
  simp [emitted, he]

/-- Settles O55: a reset edge and a cursor of 0 store nothing, an idle edge and a read store and accept nothing, and a
byte is Feed's. -/
theorem storedBytesAreTheLastAccepted : Obligations.StoredBytesAreTheLastAccepted := by
  refine ⟨fun s h hc => by simp [partialFrame_cur_zero hc], fun s t h stored hs => ?_⟩
  cases step_next_cases hs with
  | reset v x he ht =>
    have empty : t.partialFrame = [] := partialFrame_cur_zero (by rw [ht]; rfl)
    have silent : emitted s t = none := emitted_of_strobe_low (by rw [ht]; rfl)
    simp [empty, silent]
  | idle x he ht =>
    have silent : emitted s t = none := emitted_of_strobe_low (by rw [ht]; rfl)
    have kept : t.partialFrame = s.partialFrame := by rw [ht]; rfl
    simpa [State.historyAfter, he, silent, kept] using stored
  | byte x he ht =>
    subst ht
    rw [State.partialFrame_eq] at stored ⊢
    simp only [State.historyAfter, he, emitted_acceptByte he]
    exact feed_keeps_stored s.cfg x stored
  | sample f he _ ht =>
    have silent : emitted s t = none := emitted_of_sample he
    have kept : t.partialFrame = s.partialFrame := by rw [ht]; rfl
    simpa [State.historyAfter, he, silent, kept] using stored

end Sys2Proof.Machine
end

section
/-! Headers in a stream (40_synchronizer.md R59, R62, R63, R73, R75, R76): past 0x42 0x4D the next 22 bytes complete the
frame (O51), a lost header leaves state 0, and from state 0 a frame needs 24 bytes (O45). -/

namespace Sys2Proof.Machine

/-- In state 0 a stream that begins with 0x42 goes on in state 1 (R61). -/
theorem feedStream_headerOne (cfg : Config) {q : SyncState} (hc : q.cur = 0) (xs : List Byte) :
    feedStream cfg q (hdr0 :: xs) =
      ((feedStream cfg ⟨1, q.buf.write 0 hdr0⟩ xs).1, none :: (feedStream cfg ⟨1, q.buf.write 0 hdr0⟩ xs).2) := by
  rw [feedStream_cons, feed_cur_zero cfg hdr0 hc, if_pos rfl]

/-- In state 1 the byte 0x4D commits the frame: it and the next 22 bytes, whatever they are, follow buf[0] (R62, R64,
R66). -/
theorem feedStream_headerTwo (cfg : Config) {q : SyncState} (hc : q.cur = 1) {body : List Byte}
    (len : body.length = 22) :
    ∃ f : Frame, f.toList = q.buf.read 0 :: hdr1 :: body ∧
      (feedStream cfg q (hdr1 :: body)).2 = List.replicate 22 none ++ [some f] ∧
      (feedStream cfg q (hdr1 :: body)).1.cur = 0 := by
  obtain ⟨f, bytes, outputs, cur⟩ :=
    bodyBytesAreDataWhateverTheyAre cfg ⟨2, q.buf.write 1 hdr1⟩ body le_rfl (by simp) len
  rw [feedStream_cons, feed_cur_one cfg hdr1 hc, if_pos rfl]
  refine ⟨f, bytes.trans ?_, congrArg (none :: ·) outputs, cur⟩
  rw [show (2 : Cursor).toNat = 1 + 1 from rfl, map_read_write]
  rfl

/-- Settles O47: the first header byte, then the committed frame. -/
theorem headerAndBodyEmitTheFrame : Obligations.HeaderAndBodyEmitTheFrame := by
  intro cfg q body hc len
  obtain ⟨f, bytes, outputs, cur⟩ := feedStream_headerTwo cfg (q := ⟨1, q.buf.write 0 hdr0⟩) rfl len
  have first := feedStream_headerOne cfg hc (hdr1 :: body)
  rw [Memory.read_write_same] at bytes
  refine ⟨f, bytes, ?_, ?_⟩
  · exact (congrArg Prod.snd first).trans (congrArg (none :: ·) outputs)
  · exact (congrArg (·.1.cur) first).trans cur

/-- Settles O7: in state 1 the byte 0x4D makes the row's key, and commits the frame. -/
theorem headerByteTwoIsAccepted : Obligations.HeaderByteTwoIsAccepted := by
  intro s hc
  have key : keyOf s.cur 0x4D = 0x014D := by rw [hc]; rfl
  have hd : decode s.cfg (.key (keyOf s.cur 0x4D)) = .ok .hdr2Accept := decode_of_encode rfl (by rw [key]; rfl)
  refine ⟨rfl, key ▸ hd, key, fun rest hp => step_of_key hp hd, fun body len => ?_⟩
  obtain ⟨f, bytes, outputs, -⟩ := feedStream_headerTwo s.cfg (q := s.sync) hc len
  exact ⟨f, outputs, by rw [bytes]; rfl⟩

/-- With RESYNC_RETEST = true a 0x42 in state 1 goes on in state 1 (R59). -/
theorem feedStream_retest {cfg : Config} (retest : cfg.resyncRetest = true) {q : SyncState} (hc : q.cur = 1)
    (xs : List Byte) :
    feedStream cfg q (hdr0 :: xs) =
      ((feedStream cfg ⟨1, q.buf.write 0 hdr0⟩ xs).1, none :: (feedStream cfg ⟨1, q.buf.write 0 hdr0⟩ xs).2) := by
  rw [feedStream_cons, feed_cur_one cfg hdr0 hc, if_neg (by decide), if_pos ⟨retest, rfl⟩]

/-- Settles O9: the second 0x42 is the first header byte, then the committed frame. -/
theorem retestedHeaderByteStartsAgain : Obligations.RetestedHeaderByteStartsAgain := by
  intro s hc
  have key : keyOf s.cur 0x42 = 0x0142 := by rw [hc]; rfl
  refine ⟨fun retest => ?_, fun single => ?_⟩
  · have hd : decode s.cfg (.key (keyOf s.cur 0x42)) = .ok .hdr2Retest := decode_of_encode retest (by rw [key]; rfl)
    refine ⟨rfl, key ▸ hd, key, fun rest hp => step_of_key hp hd, fun m body len => ?_⟩
    obtain ⟨f, bytes, outputs, -⟩ :=
      feedStream_headerTwo s.cfg (q := ⟨1, (m.write 0 hdr0).write 0 hdr0⟩) rfl len
    rw [Memory.read_write_same] at bytes
    refine ⟨f, bytes, ?_⟩
    have first := feedStream_headerOne s.cfg (q := ⟨0, m⟩) rfl (hdr0 :: hdr1 :: body)
    rw [feedStream_retest retest (q := ⟨1, m.write 0 hdr0⟩) rfl, outputs] at first
    exact congrArg Prod.snd first
  · exact decodeInvertsEncode s.cfg (.hdr2Reject 0x42) (wf_hdr2Reject.2 ⟨by decide, by simp [single]⟩)

/-- With RESYNC_RETEST = false a second 0x42 in a row abandons the header: state 0 again, buf[0] written (R63). -/
theorem feedStream_abandonedHeader {cfg : Config} (single : cfg.resyncRetest = false) {q : SyncState}
    (hc : q.cur = 0) (xs : List Byte) :
    feedStream cfg q (hdr0 :: hdr0 :: xs) =
      ((feedStream cfg ⟨0, q.buf.write 0 hdr0⟩ xs).1,
        none :: none :: (feedStream cfg ⟨0, q.buf.write 0 hdr0⟩ xs).2) := by
  have rejected (m : Memory) : feed cfg ⟨1, m⟩ hdr0 = (⟨0, m⟩, none) := by
    rw [feed_cur_one cfg hdr0 rfl, if_neg (by decide), if_neg (by simp [single])]
  rw [feedStream_headerOne cfg hc, feedStream_cons, rejected]

/-- So the 0x4D of 42 42 4D is no header byte, and is discarded (R75). -/
theorem feedStream_lostHeader {cfg : Config} (single : cfg.resyncRetest = false) {q : SyncState} (hc : q.cur = 0)
    (xs : List Byte) :
    feedStream cfg q (hdr0 :: hdr0 :: hdr1 :: xs) =
      ((feedStream cfg ⟨0, q.buf.write 0 hdr0⟩ xs).1,
        none :: none :: none :: (feedStream cfg ⟨0, q.buf.write 0 hdr0⟩ xs).2) := by
  rw [feedStream_abandonedHeader single hc, feedStream_cons, feed_discards cfg rfl (by decide)]

/-- Settles O8: the rows of higher priority do not take the byte; the stream loses its header. -/
theorem failedHeaderIsAbandoned : Obligations.FailedHeaderIsAbandoned := by
  intro s x hc hx retested
  have hd : decode s.cfg (.key (keyOf s.cur x)) = .ok (.hdr2Reject x) :=
    decode_of_encode (wf_hdr2Reject.2 ⟨hx, fun ⟨retest, h42⟩ => retested retest h42⟩) (by rw [hc]; rfl)
  exact ⟨rfl, hd, fun rest hp => step_of_key hp hd, fun single m => feedStream_lostHeader single rfl []⟩

/-- From state 0 fewer than 24 bytes emit nothing. -/
theorem feedStream_short_silent (cfg : Config) {q : SyncState} (hc : q.cur = 0) {xs : List Byte}
    (short : xs.length < 24) : (feedStream cfg q xs).2 = List.replicate xs.length none := by
  refine List.eq_replicate_iff.2 ⟨feedStream_length cfg q xs, fun o ho => ?_⟩
  obtain ⟨t, ht⟩ := List.mem_iff_getElem?.1 ho
  cases o with
  | none => rfl
  | some f =>
    obtain ⟨late, -⟩ := emittedFrameIsTheLast24Bytes cfg q xs t f hc ht
    obtain ⟨hlt, -⟩ := List.getElem?_eq_some_iff.1 ht
    rw [feedStream_length] at hlt
    omega

/-- Settles O49: the header is lost, and 22 bytes from state 0 are too few. -/
theorem secondHeaderByteIsNotRetested : Obligations.SecondHeaderByteIsNotRetested := by
  intro cfg q c hc single len
  have lost := feedStream_lostHeader single hc
  have silent := feedStream_short_silent cfg (q := ⟨0, q.buf.write 0 hdr0⟩) rfl (by omega : c.length < 24)
  rw [len] at silent
  refine ⟨congrArg (·.1.cur) (feedStream_headerOne cfg hc []),
    congrArg (·.1.cur) (feedStream_abandonedHeader single hc []), congrArg (·.1.cur) (lost []),
    congrArg (·.1) (lost c), ?_⟩
  exact (congrArg (·.2) (lost c)).trans (congrArg (none :: none :: none :: ·) silent)

/-- A byte that emits leaves state 0. -/
theorem feed_cur_of_emission {cfg : Config} {q : SyncState} {x : Byte} {f : Frame} (h : (feed cfg q x).2 = some f) :
    (feed cfg q x).1.cur = 0 := by
  rw [feed_output] at h
  split at h
  · next hc => rw [feed_cur_last cfg x hc]
  · cases h

/-- Settles O50: the byte that emits the first frame leaves state 0, and from there the second is the last 24 bytes
(O45); frames with no gap are two streams of O47. -/
theorem emissionsAre24BytesApart : Obligations.EmissionsAre24BytesApart := by
  refine ⟨fun cfg q xs t u f g first second before => ?_, fun cfg q b c hc lenb lenc => ?_⟩
  · obtain ⟨x, hx⟩ := getElem?_of_output first
    obtain ⟨ht, -⟩ := List.getElem?_eq_some_iff.1 hx
    rw [feedStream_getElem? cfg q hx] at first
    have restart : (feedStream cfg q (xs.take (t + 1))).1.cur = 0 := by
      rw [List.take_add_one, hx, feedStream_append]
      exact feed_cur_of_emission (Option.some.inj first)
    obtain ⟨d, rfl⟩ := Nat.exists_eq_add_of_le (show t + 1 ≤ u from before)
    rw [feedStream_getElem?_add cfg q xs ht] at second
    obtain ⟨late, bytes⟩ := emittedFrameIsTheLast24Bytes _ _ _ _ _ restart second
    refine ⟨by omega, ?_⟩
    rw [bytes, List.drop_drop]
    congr 2
    omega
  · obtain ⟨f, fbytes, fout, fcur⟩ := headerAndBodyEmitTheFrame cfg q b hc lenb
    obtain ⟨g, gbytes, gout, -⟩ := headerAndBodyEmitTheFrame cfg _ c fcur lenc
    refine ⟨f, g, fbytes, gbytes, ?_⟩
    rw [feedStream_append, fout, gout]
    simp only [List.append_assoc]

end Sys2Proof.Machine
end

section
/-! Idle cycles (40_synchronizer.md R74): a run over edges with rst = 0 feeds the accepted bytes as one stream. -/

namespace Sys2Proof.Machine

/-- The accepted bytes of a first edge come before those of the others. -/
theorem accepted_cons (e : Bool × Byte) (l : List (Bool × Byte)) : accepted (e :: l) = accepted [e] ++ accepted l := by
  obtain ⟨v, x⟩ := e
  cases v <;> rfl

/-- What a step at an edge with rst = 0 does, said of the synchronizer, the frame it emits, and the registers around
it. -/
structure SlotStep (s t : State) (e : Bool × Byte) (rest : List Stimulus) : Prop where
  next : step s = .next t
  cfg : t.cfg = s.cfg
  pending : t.pending = rest
  sync : t.sync = (feedStream s.cfg s.sync (accepted [e])).1
  emits : (emitted s t).toList = (feedStream s.cfg s.sync (accepted [e])).2.filterMap id
  frameQ : t.frameQ = (emitted s t).getD s.frameQ
  frameHeld : t.frameHeld = ((emitted s t).isSome || s.frameHeld)

/-- A step at an edge with rst = 0 goes on: with no byte nothing is fed, with a byte it is fed. -/
theorem slotStep_of_pending {s : State} {e : Bool × Byte} {rest : List Stimulus} (hp : s.pending = slot e :: rest) :
    ∃ t, SlotStep s t e rest := by
  obtain ⟨v, x⟩ := e
  have tail : s.consume.pending = rest := by simp [hp]
  cases v with
  | false =>
    have silent : emitted s s.consume.strobeLow = none := emitted_of_strobe_low rfl
    exact ⟨_, step_of_idle (stimulus_of_pending hp), rfl, tail, rfl, by rw [silent]; rfl, by rw [silent]; rfl,
      by rw [silent]; rfl⟩
  | true =>
    have output := emitted_acceptByte (stimulus_of_pending hp)
    refine ⟨_, step_of_byte (stimulus_of_pending hp), rfl, tail, rfl, ?_, by rw [output]; rfl, by rw [output]; rfl⟩
    rw [output, accepted_offered, accepted_nil, feedStream_singleton]
    cases (feed s.cfg s.sync x).2 <;> rfl

/-- The last of a step's frames and those after it. -/
theorem getLastD_toList_append (o : Option Frame) (l : List Frame) (f : Frame) :
    (o.toList ++ l).getLastD f = l.getLastD (o.getD f) := by
  cases o with
  | none => rfl
  | some g => exact List.getLastD_cons

/-- Settles O48, by induction over the edges: what the first one feeds and emits comes before the rest. -/
theorem idleCyclesChangeNoFrame : Obligations.IdleCyclesChangeNoFrame := by
  intro s slots rest hp
  induction slots generalizing s with
  | nil => exact ⟨s, rfl, rfl, rfl, rfl, by simp, by simpa using hp⟩
  | cons e slots ih =>
    obtain ⟨t, first⟩ := slotStep_of_pending hp
    obtain ⟨u, run, sync, emits, frameQ, frameHeld, pending⟩ := ih t first.pending
    have frames := emissions_of_next first.next slots.length
    rw [first.cfg, first.sync] at sync emits
    refine ⟨u, (run_of_next first.next _).trans run, ?_, ?_, ?_, ?_, pending⟩
    · rw [accepted_cons, feedStream_append, sync]
    · rw [List.length_cons, frames, accepted_cons, feedStream_append, List.filterMap_append, first.emits, emits]
    · rw [List.length_cons, frames, getLastD_toList_append, ← first.frameQ, frameQ]
    · rw [List.length_cons, frames, frameHeld, first.frameHeld]
      cases emitted s t <;> simp

end Sys2Proof.Machine
end

section
/-! Streams without a header (40_synchronizer.md R72). -/

namespace Sys2Proof.Machine

/-- Where the pair 0x42 0x4D stands nowhere in the bytes still to come, counting the 0x42 that a state 1 took, no byte
emits: the block never leaves states 0 and 1. -/
theorem feedStream_silent_of_no_header (cfg : Config) (xs : List Byte) :
    ∀ q : SyncState, (q.cur = 0 ∧ ¬[hdr0, hdr1] <:+: xs) ∨ (q.cur = 1 ∧ ¬[hdr0, hdr1] <:+: hdr0 :: xs) →
      (feedStream cfg q xs).2 = List.replicate xs.length none := by
  induction xs with
  | nil => exact fun _ _ => rfl
  | cons x xs ih =>
    rintro q (⟨hc, absent⟩ | ⟨hc, absent⟩)
    · have later : ¬[hdr0, hdr1] <:+: xs := fun h => absent (List.infix_cons h)
      rw [feedStream_cons, feed_cur_zero cfg x hc]
      split
      · next hx => exact congrArg (none :: ·) (ih _ (.inr ⟨rfl, hx ▸ absent⟩))
      · exact congrArg (none :: ·) (ih _ (.inl ⟨rfl, later⟩))
    · have noHeader : x ≠ hdr1 := by rintro rfl; exact absent ⟨[], xs, rfl⟩
      have later : ¬[hdr0, hdr1] <:+: x :: xs := fun h => absent (List.infix_cons h)
      rw [feedStream_cons, feed_cur_one cfg x hc, if_neg noHeader]
      split
      · next retest => exact congrArg (none :: ·) (ih _ (.inr ⟨rfl, retest.2 ▸ later⟩))
      · exact congrArg (none :: ·) (ih _ (.inl ⟨rfl, fun h => later (List.infix_cons h)⟩))

/-- Settles O46: the edges by the bytes they accept (O48), the lost header by O49, the state past the header by O51. -/
theorem noHeaderNoFrame : Obligations.NoHeaderNoFrame := by
  refine ⟨fun s slots rest hc hp absent => ?_, fun cfg q hc single f => ?_, fun cfg q hc => ?_⟩
  · obtain ⟨t, -, -, emits, -⟩ := idleCyclesChangeNoFrame s slots rest hp
    rw [emits, feedStream_silent_of_no_header s.cfg _ s.sync (.inl ⟨hc, absent⟩)]
    simp
  · obtain ⟨-, -, -, -, silent⟩ := secondHeaderByteIsNotRetested cfg q (List.replicate 22 0) hc single rfl
    rw [silent]
    simp
  · obtain ⟨f, -, outputs, -⟩ :=
      bodyBytesAreDataWhateverTheyAre cfg q (List.replicate 22 0) (by simp [hc]) (by simp [hc]) (by simp [hc])
    exact ⟨f, outputs ▸ List.mem_append_right _ (List.mem_singleton_self _)⟩

end Sys2Proof.Machine
end

section
/-! The decoder's primitives (41_decoder.md R80, R81, R95, R96): W255 and W256 as numbers, as hardware, and as the 16-bit
words that the fields and the ports carry. -/

namespace Sys2Proof.Machine

/-- W255 as the hardware forms it (R80): the word {hi, 00} less hi, plus lo, with no wrap in 16 bits. -/
theorem w255_hardware (hi lo : Byte) :
    ((hi ++ (0 : Byte) : BitVec 16) - hi.setWidth 16 + lo.setWidth 16).toNat = w255 hi lo := by
  have shifted : (hi ++ (0 : Byte) : BitVec 16).toNat = hi.toNat * 256 := by
    rw [BitVec.toNat_append, Nat.shiftLeft_eq]
    exact Nat.or_zero _
  simp only [BitVec.toNat_add, BitVec.toNat_sub, BitVec.toNat_setWidth, shifted, w255, intMult]
  omega

/-- Every number up to 65280 is W255 of some bytes (R96): the high byte leaves a remainder of at most 255. -/
theorem w255_surjective {v : Nat} (h : v ≤ 65280) : ∃ hi lo : Byte, w255 hi lo = v := by
  refine ⟨BitVec.ofNat 8 ((v - 1) / 255), BitVec.ofNat 8 (v - (v - 1) / 255 * 255), ?_⟩
  have high : (v - 1) / 255 < 2 ^ 8 := by omega
  have low : v - (v - 1) / 255 * 255 < 2 ^ 8 := by omega
  rw [w255, intMult, BitVec.toNat_ofNat, BitVec.toNat_ofNat, Nat.mod_eq_of_lt high, Nat.mod_eq_of_lt low]
  omega

/-- W256 is the big-endian word of its two bytes (R81). -/
theorem w256_eq_word (hi lo : Byte) : w256 hi lo = (hi ++ lo : BitVec 16).toNat := by
  rw [BitVec.toNat_append, ← Nat.shiftLeft_add_eq_or_of_lt lo.isLt, Nat.shiftLeft_eq]
  rfl

/-- W256 tells its bytes apart (R81). -/
theorem w256_inj {hi lo hi' lo' : Byte} (h : w256 hi lo = w256 hi' lo') : hi = hi' ∧ lo = lo' := by
  unfold w256 fixMult at h
  exact ⟨BitVec.eq_of_toNat_eq (by omega), BitVec.eq_of_toNat_eq (by omega)⟩

/-- A 16-bit field holds a value of W255 unchanged (R96). -/
theorem ofNat_w255_toNat (hi lo : Byte) : (BitVec.ofNat 16 (w255 hi lo)).toNat = w255 hi lo :=
  Nat.mod_eq_of_lt ((w255_le hi lo).trans_lt (by decide))

/-- The 16-bit field of a value of W256 is the word of its two bytes (R81). -/
theorem ofNat_w256 (hi lo : Byte) : BitVec.ofNat 16 (w256 hi lo) = hi ++ lo := by
  rw [w256_eq_word, BitVec.ofNat_toNat, BitVec.setWidth_eq]

/-- A 16-bit field holds a value of W256 unchanged (R81). -/
theorem ofNat_w256_toNat (hi lo : Byte) : (BitVec.ofNat 16 (w256 hi lo)).toNat = w256 hi lo := by
  rw [ofNat_w256, w256_eq_word]

/-- SCALE10 of a 16-bit word is at most SCALE10(0xFFFF) = 6553.5 (R82, R96). -/
theorem scale10_le (raw : BitVec 16) : scale10 raw ≤ 65535 / 10 := by
  have bound : (raw.toNat : ℚ) ≤ 65535 := by exact_mod_cast Nat.le_of_lt_succ raw.isLt
  exact div_le_div_of_nonneg_right bound (by norm_num)

/-- Settles O31: the multiplier is 255, one less than the weight of the high byte. -/
theorem integerExtractorMultipliesBy255 : Obligations.IntegerExtractorMultipliesBy255 := by
  refine ⟨fun hi lo => ⟨rfl, w255_le hi lo, w255_hardware hi lo⟩, fun a ha => ?_⟩
  have next : (a + 1).toNat = a.toNat + 1 := by
    rw [BitVec.toNat_add]
    exact Nat.mod_eq_of_lt (Nat.lt_succ_of_le (Nat.succ_le_succ ha))
  have full : (0xFF : Byte).toNat = 255 := rfl
  have zero : (0x00 : Byte).toNat = 0 := rfl
  simp only [w255, intMult, next, full, zero]
  omega

/-- Settles O32: the bound of W255 at each field, its surjectivity, and raw as the number of tenths. -/
theorem decodedRanges : Obligations.DecodedRanges := by
  refine ⟨fun b => ?_, fun v => w255_surjective, fun raw => ⟨?_, scale10_le raw, raw.toNat, ?_⟩⟩
  · simp only [decodeFields, pm25Of, tvocOf, hchoOf, co2Of, ofNat_w255_toNat, w255_le, and_self]
  · exact div_nonneg (Nat.cast_nonneg _) (Nat.cast_nonneg _)
  · exact div_eq_mul_one_div _ _

/-- Settles O33: W256 is the word {hi, lo}. -/
theorem fixedPointExtractorIsTheBigEndianWord : Obligations.FixedPointExtractorIsTheBigEndianWord :=
  ⟨fun hi lo => ⟨rfl, w256_eq_word hi lo, w256_eq_word hi lo ▸ Nat.le_of_lt_succ (hi ++ lo : BitVec 16).isLt⟩,
    fun _ _ _ _ => w256_inj⟩

end Sys2Proof.Machine
end

section
/-! The fields of a frame, on the ports and in a Record (41_decoder.md R83 to R94). -/

namespace Sys2Proof.Machine

/-- The integer lane of W255 carries it in the width of the build (R49, R80). -/
theorem carries_intLane (cfg : Config) (hi lo : Byte) : carries cfg (intLane cfg.intOutWidth (w255 hi lo)) hi lo := by
  refine ⟨intLane_w255_toNat cfg.intOutWidth hi lo, ?_⟩
  cases cfg.intOutWidth with
  | w16 => exact ⟨_, rfl⟩
  | w32 => exact ⟨_, rfl⟩

/-- Settles O36: each integer port is the lane of W255 of its own two bytes. -/
theorem integerPortsShowTheFields : Obligations.IntegerPortsShowTheFields := fun s held =>
  ⟨_, ports_frame_eq_some.2 ⟨held, rfl⟩, carries_intLane s.cfg _ _, carries_intLane s.cfg _ _,
    carries_intLane s.cfg _ _, carries_intLane s.cfg _ _⟩

/-- Settles O37: each raw port is the word of its two bytes, and the floating-point port is its scaled view. -/
theorem fixedPointPortsShowTheFields : Obligations.FixedPointPortsShowTheFields := fun _ held =>
  ⟨_, ports_frame_eq_some.2 ⟨held, rfl⟩, ofNat_w256 _ _, ofNat_w256_toNat _ _, rfl, ofNat_w256 _ _,
    ofNat_w256_toNat _ _, rfl⟩

/-- Settles O39: no field of 16 bits loses a bit of its extractor's value. -/
theorem decodeFieldsComputesTheSixFields : Obligations.DecodeFieldsComputesTheSixFields := fun b =>
  ⟨ofNat_w255_toNat b[4] b[5], ofNat_w255_toNat b[6] b[7], ofNat_w255_toNat b[9] b[10], ofNat_w255_toNat b[12] b[13],
    ofNat_w256_toNat b[14] b[15], ofNat_w256_toNat b[16] b[17]⟩

/-- Settles O40: the six extractors read the other twelve bytes only, and frame_data shows all 24. -/
theorem undecodedBytesDoNotMatter : Obligations.UndecodedBytesDoNotMatter := by
  refine ⟨fun cfg b d agree => ?_, fun s p hp i h _ => ?_⟩
  · have same (i : Fin 24) (h : i.val ∉ undecodedOffsets := by decide) : b[i] = d[i] := agree i i.isLt h
    have pm25 : pm25Of b = pm25Of d := congrArg₂ w255 (same 4) (same 5)
    have tvoc : tvocOf b = tvocOf d := congrArg₂ w255 (same 6) (same 7)
    have hcho : hchoOf b = hchoOf d := congrArg₂ w255 (same 9) (same 10)
    have co2 : co2Of b = co2Of d := congrArg₂ w255 (same 12) (same 13)
    have temp : tempX10Of b = tempX10Of d := congrArg₂ w256 (same 14) (same 15)
    have hum : humX10Of b = humX10Of d := congrArg₂ w256 (same 16) (same 17)
    simp only [lanesOf, decodeFields, pm25, tvoc, hcho, co2, temp, hum, and_self]
  · obtain ⟨-, rfl⟩ := ports_frame_eq_some.1 hp
    exact frameBits_byte s.frameQ h

/-- Settles O43: a Record takes its fields from DecodeFields, and lane and field carry the same value of W255. -/
theorem recordsOfOneFrameDifferOnlyInTimestamp : Obligations.RecordsOfOneFrameDifferOnlyInTimestamp := by
  intro τ s p now later hp
  obtain ⟨-, rfl⟩ := ports_frame_eq_some.1 hp
  have same (hi lo : Byte) : (BitVec.ofNat 16 (w255 hi lo)).toNat = (intLane s.cfg.intOutWidth (w255 hi lo)).toNat := by
    rw [ofNat_w255_toNat, intLane_w255_toNat]
  exact ⟨rfl, rfl, same _ _, same _ _, same _ _, same _ _, rfl, rfl⟩

end Sys2Proof.Machine
end

section
/-! The encodings of a floating-point format in the order of their values (93_implementation_defined.md G1): runs of
encodings one last place apart, the last place doubling from one run to the next. -/

namespace Sys2Proof.Machine

/-- The unit in the last place of the encodings with exponent field d + 1, and of the subnormals for d = 0. -/
def lastPlace (f : FloatFmt) (d : Nat) : ℚ := 2 ^ ((d : ℤ) + 1 - expBias f - fracBits f)

theorem lastPlace_pos (f : FloatFmt) (d : Nat) : 0 < lastPlace f d := zpow_pos two_pos _

theorem lastPlace_succ (f : FloatFmt) (d : Nat) : lastPlace f (d + 1) = 2 * lastPlace f d := by
  unfold lastPlace
  rw [← zpow_one_add₀ two_ne_zero]
  push_cast
  ring_nf

/-- Exponent field 0: the subnormals. -/
theorem floatValue_subnormal (f : FloatFmt) {m : Nat} (hm : m < 2 ^ fracBits f) :
    floatValue f m = m * lastPlace f 0 := by
  unfold floatValue
  simp only [Nat.div_eq_of_lt hm, Nat.mod_eq_of_lt hm, if_true, lastPlace]
  norm_num

theorem floatValue_zero (f : FloatFmt) : floatValue f 0 = 0 := by
  rw [floatValue_subnormal f (by positivity), Nat.cast_zero, zero_mul]

/-- Exponent field d + 1: the fraction field under a leading one. -/
theorem floatValue_normal (f : FloatFmt) (d : Nat) {m : Nat} (hm : m < 2 ^ fracBits f) :
    floatValue f ((d + 1) * 2 ^ fracBits f + m) = (2 ^ fracBits f + m : Nat) * lastPlace f d := by
  have exponent : ((d + 1) * 2 ^ fracBits f + m) / 2 ^ fracBits f = d + 1 := by
    rw [Nat.add_comm, Nat.add_mul_div_right _ _ (by positivity), Nat.div_eq_of_lt hm, Nat.zero_add]
  have fraction : ((d + 1) * 2 ^ fracBits f + m) % 2 ^ fracBits f = m := by
    rw [Nat.mul_add_mod_self_right, Nat.mod_eq_of_lt hm]
  unfold floatValue
  simp only [exponent, fraction, Nat.succ_ne_zero, if_false, lastPlace, Nat.cast_succ]

/-- From the first encoding of exponent field d + 1 (of 0, for d = 0) up to and with the next power of two, an encoding
counts last places. -/
theorem floatValue_run (f : FloatFmt) {d k : Nat} (low : 2 ^ fracBits f ≤ k ∨ d = 0) (high : k ≤ 2 * 2 ^ fracBits f) :
    floatValue f (d * 2 ^ fracBits f + k) = k * lastPlace f d := by
  rcases lt_or_ge k (2 ^ fracBits f) with sub | norm
  · obtain rfl := low.resolve_left sub.not_ge
    rw [zero_mul, zero_add, floatValue_subnormal f sub]
  obtain ⟨m, rfl⟩ := Nat.exists_eq_add_of_le norm
  rcases lt_or_ge m (2 ^ fracBits f) with inside | next
  · rw [← add_assoc, ← Nat.succ_mul, floatValue_normal f d inside]
  · obtain rfl : m = 2 ^ fracBits f := by omega
    have power : d * 2 ^ fracBits f + (2 ^ fracBits f + 2 ^ fracBits f) = (d + 1 + 1) * 2 ^ fracBits f + 0 := by ring
    rw [power, floatValue_normal f (d + 1) (by positivity), lastPlace_succ]
    push_cast
    ring

/-- The order of the encodings is the order of their values: an encoding and the next one stand in one run. -/
theorem floatValue_strictMono (f : FloatFmt) : StrictMono (floatValue f) := by
  refine strictMono_nat_of_lt_succ fun b => ?_
  have next {d k : Nat} (low : 2 ^ fracBits f ≤ k ∨ d = 0) (high : k < 2 * 2 ^ fracBits f)
      (hb : d * 2 ^ fracBits f + k = b) : floatValue f b < floatValue f (b + 1) := by
    rw [← hb, add_assoc, floatValue_run f low high.le, floatValue_run f (low.imp_left Nat.le_succ_of_le) high]
    exact mul_lt_mul_of_pos_right (by exact_mod_cast Nat.lt_succ_self k) (lastPlace_pos f d)
  have split := Nat.div_add_mod' b (2 ^ fracBits f)
  have small : b % 2 ^ fracBits f < 2 ^ fracBits f := Nat.mod_lt b (by positivity)
  rcases exponent : b / 2 ^ fracBits f with _ | d
  · rw [exponent] at split
    exact next (.inr rfl) (by omega) split
  · rw [exponent, Nat.succ_mul, add_assoc] at split
    exact next (.inl (Nat.le_add_right _ _)) (by omega) split

/-- Seen from a point x within a run, in its last places, every encoding is an integer number k of last places or is
farther off than an end k of the run. -/
theorem floatValue_in_run_or_farther (f : FloatFmt) (d : Nat) {x : ℚ} (low : (2 ^ fracBits f : Nat) ≤ x)
    (high : x ≤ (2 * 2 ^ fracBits f : Nat)) (b : Nat) :
    ∃ k : Nat, b = d * 2 ^ fracBits f + k ∧ floatValue f b = k * lastPlace f d ∨
      |k * lastPlace f d - x * lastPlace f d| < |floatValue f b - x * lastPlace f d| := by
  have unit := lastPlace_pos f d
  have bottom := floatValue_run f (d := d) (.inl le_rfl) (by omega)
  have top := floatValue_run f (d := d) (k := 2 * 2 ^ fracBits f) (.inl (by omega)) le_rfl
  have low' := mul_le_mul_of_nonneg_right low unit.le
  have high' := mul_le_mul_of_nonneg_right high unit.le
  rcases lt_or_ge b (d * 2 ^ fracBits f + 2 ^ fracBits f) with below | fromBottom
  · have less := floatValue_strictMono f below
    rw [bottom] at less
    refine ⟨2 ^ fracBits f, .inr ?_⟩
    rw [abs_of_nonpos (by linarith), abs_of_nonpos (by linarith)]
    linarith
  rcases lt_or_ge (d * 2 ^ fracBits f + 2 * 2 ^ fracBits f) b with above | toTop
  · have more := floatValue_strictMono f above
    rw [top] at more
    refine ⟨2 * 2 ^ fracBits f, .inr ?_⟩
    rw [abs_of_nonneg (by linarith), abs_of_nonneg (by linarith)]
    linarith
  · obtain ⟨k, rfl⟩ := Nat.exists_eq_add_of_le (le_of_add_le_left fromBottom)
    exact ⟨k, .inl ⟨rfl, floatValue_run f (.inl (by omega)) (by omega)⟩⟩

end Sys2Proof.Machine
end

section
/-! Rounding to the nearest integer, ties to even, as a statement about distances in ℚ (93_implementation_defined.md
G1). -/

namespace Sys2Proof.Machine

/-- The rounded quotient is within one half of the quotient. -/
theorem roundNearestEven_distance (a : Nat) {b : Nat} (hb : 0 < b) : |(roundNearestEven a b : ℚ) - a / b| ≤ 1 / 2 := by
  obtain ⟨above, below⟩ := roundNearestEven_near a hb
  have above' : 2 * (a : ℚ) ≤ (2 * roundNearestEven a b + 1) * b := by exact_mod_cast above
  have below' : 2 * (roundNearestEven a b : ℚ) * b ≤ 2 * a + b := by exact_mod_cast below
  have pos : (0 : ℚ) < b := by exact_mod_cast hb
  rw [abs_le, neg_le_sub_iff_le_add, sub_le_iff_le_add, div_le_iff₀ pos, ← sub_le_iff_le_add', le_div_iff₀ pos]
  constructor <;> linarith

/-- One half away from the quotient, the rounded quotient is even. -/
theorem roundNearestEven_even_of_half {a b : Nat} (hb : 0 < b) (half : |(roundNearestEven a b : ℚ) - a / b| = 1 / 2) :
    roundNearestEven a b % 2 = 0 := by
  have pos : (b : ℚ) ≠ 0 := by exact_mod_cast hb.ne'
  obtain ⟨j, hj⟩ : ∃ j : ℤ, 2 * (a : ℤ) = b + 2 * b * j := by
    rcases (abs_eq (by norm_num)).1 half with up | down
    · refine ⟨roundNearestEven a b - 1, ?_⟩
      field_simp at up
      have h : 2 * (a : ℚ) = b + 2 * b * (roundNearestEven a b - 1) := by linarith
      exact_mod_cast h
    · refine ⟨roundNearestEven a b, ?_⟩
      field_simp at down
      have h : 2 * (a : ℚ) = b + 2 * b * roundNearestEven a b := by linarith
      exact_mod_cast h
  apply roundNearestEven_tie
  zify
  rw [← Int.mul_emod_mul_of_pos _ _ two_pos, hj, Int.add_mul_emod_self_left]
  exact Int.emod_eq_of_lt (by omega) (by omega)

/-- No integer is nearer to the quotient than the rounded one, and where another is as near, the rounded one is even. -/
theorem roundNearestEven_nearest (a : Nat) {b : Nat} (hb : 0 < b) (k : Nat) :
    |(roundNearestEven a b : ℚ) - a / b| ≤ |(k : ℚ) - a / b| ∧
      (|(roundNearestEven a b : ℚ) - a / b| = |(k : ℚ) - a / b| →
        k = roundNearestEven a b ∨ roundNearestEven a b % 2 = 0) := by
  have near := roundNearestEven_distance a hb
  rcases eq_or_ne k (roundNearestEven a b) with rfl | other
  · exact ⟨le_rfl, fun _ => .inl rfl⟩
  have apart : (1 : ℚ) ≤ |(k : ℚ) - roundNearestEven a b| := by
    exact_mod_cast Int.one_le_abs (sub_ne_zero.2 (Nat.cast_injective.ne other))
  have triangle := abs_sub_le (k : ℚ) (a / b) (roundNearestEven a b)
  rw [abs_sub_comm (a / b : ℚ)] at triangle
  exact ⟨by linarith, fun tie => .inr (roundNearestEven_even_of_half hb (by linarith))⟩

/-- The rounded quotient stays between integers that the quotient is between. -/
theorem roundNearestEven_range {a b p q : Nat} (hb : 0 < b) (low : p * b ≤ a) (high : a ≤ q * b) :
    p ≤ roundNearestEven a b ∧ roundNearestEven a b ≤ q := by
  obtain ⟨above, below⟩ := roundNearestEven_near a hb
  have lower : 2 * p ≤ 2 * roundNearestEven a b + 1 := Nat.le_of_mul_le_mul_right (by linarith) hb
  have upper : 2 * roundNearestEven a b ≤ 2 * q + 1 := Nat.le_of_mul_le_mul_right (by linarith) hb
  omega

/-- The rounded quotient is the quotient exactly if that is an integer. -/
theorem roundNearestEven_eq_div_iff (a : Nat) {b : Nat} (hb : 0 < b) : (roundNearestEven a b : ℚ) = a / b ↔ b ∣ a := by
  have pos : (b : ℚ) ≠ 0 := by exact_mod_cast hb.ne'
  constructor
  · intro h
    rw [eq_div_iff pos] at h
    exact Dvd.intro_left _ (by exact_mod_cast h)
  · rintro ⟨k, rfl⟩
    have whole : roundNearestEven (b * k) b = k := by simp [roundNearestEven, hb]
    rw [whole, Nat.cast_mul, mul_div_cancel_left₀ _ pos]

end Sys2Proof.Machine
end

section
/-! The encoding of a quotient, and the floating-point lanes (41_decoder.md R82; 30_encoding.md R50;
93_implementation_defined.md G1). -/

namespace Sys2Proof.Machine

/-- The dividend and the divisor of the significand: the quotient num / den counted in last places of its binade is
dividend / divisor. -/
def dividend (f : FloatFmt) (num : Nat) : Nat := num * 2 ^ (fracBits f + 4)

/-- The divisor of the significand (see dividend): den in the quotient's binade. -/
def divisor (num den : Nat) : Nat := den * 2 ^ binade num den

/-- The run of encodings that holds the quotient's binade. -/
def runOf (f : FloatFmt) (num den : Nat) : Nat := binade num den + expBias f - 5

theorem encodeRounded_zero (f : FloatFmt) (den : Nat) : encodeRounded f 0 den = 0 := rfl

theorem encodeRounded_eq (f : FloatFmt) {num : Nat} (den : Nat) (h : num ≠ 0) :
    encodeRounded f num den =
      runOf f num den * 2 ^ fracBits f + roundNearestEven (dividend f num) (divisor num den) := if_neg h

theorem divisor_pos (num : Nat) {den : Nat} (hd : 0 < den) : 0 < divisor num den := Nat.mul_pos hd (by positivity)

/-- The quotient in last places of its binade. -/
theorem quotient_eq (f : FloatFmt) (num : Nat) {den : Nat} (hd : 0 < den) :
    (num / den : ℚ) = (dividend f num : ℚ) / divisor num den * lastPlace f (runOf f num den) := by
  have bias : 5 ≤ expBias f := by cases f <;> decide
  have pos : (den : ℚ) ≠ 0 := by exact_mod_cast hd.ne'
  have run : ((runOf f num den : Nat) : ℤ) + 1 - expBias f - fracBits f = binade num den - (fracBits f + 4 : Nat) := by
    unfold runOf
    push_cast
    omega
  rw [lastPlace, run, zpow_sub₀ two_ne_zero, zpow_natCast, zpow_natCast, dividend, divisor]
  push_cast
  field_simp

/-- The quotient stands within its run. -/
theorem significand_range (f : FloatFmt) {num den : Nat} (hd : 0 < den) (h : den ≤ num * 2 ^ 4) :
    2 ^ fracBits f * divisor num den ≤ dividend f num ∧ dividend f num < 2 * 2 ^ fracBits f * divisor num den := by
  obtain ⟨low, high⟩ := binade_spec hd h
  have scaled : dividend f num = 2 ^ fracBits f * (num * 2 ^ 4) := by
    rw [dividend, pow_add]
    ring
  have doubled : 2 * 2 ^ fracBits f * divisor num den = 2 ^ fracBits f * (den * 2 ^ (binade num den + 1)) := by
    rw [divisor, pow_succ]
    ring
  rw [doubled, scaled]
  exact ⟨Nat.mul_le_mul_left _ low, Nat.mul_lt_mul_of_pos_left high (by positivity)⟩

/-- The rounded quotient stands within its run or at the next power of two. -/
theorem roundedSignificand_range (f : FloatFmt) {num den : Nat} (hd : 0 < den) (h : den ≤ num * 2 ^ 4) :
    2 ^ fracBits f ≤ roundNearestEven (dividend f num) (divisor num den) ∧
      roundNearestEven (dividend f num) (divisor num den) ≤ 2 * 2 ^ fracBits f := by
  obtain ⟨low, high⟩ := significand_range f hd h
  exact roundNearestEven_range (divisor_pos num hd) low high.le

/-- The encoding of a quotient carries the rounded quotient, in last places of the binade. -/
theorem floatValue_encodeRounded (f : FloatFmt) {num den : Nat} (hd : 0 < den) (h : den ≤ num * 2 ^ 4) :
    floatValue f (encodeRounded f num den) =
      roundNearestEven (dividend f num) (divisor num den) * lastPlace f (runOf f num den) := by
  obtain ⟨low, high⟩ := roundedSignificand_range f hd h
  rw [encodeRounded_eq f den (by omega), floatValue_run f (.inl low) high]

/-- An encoded quotient carries it exactly if its binade has a last place for it. -/
theorem floatValue_encodeRounded_exact_iff (f : FloatFmt) {num den : Nat} (hd : 0 < den) (h : den ≤ num * 2 ^ 4) :
    floatValue f (encodeRounded f num den) = (num / den : ℚ) ↔ divisor num den ∣ dividend f num := by
  rw [floatValue_encodeRounded f hd h, quotient_eq f num hd, mul_left_inj' (lastPlace_pos f _).ne']
  exact roundNearestEven_eq_div_iff _ (divisor_pos num hd)

/-- c encodes the value of the format nearest to x, ties to even (RNE of G1). -/
def CorrectlyRounded (f : FloatFmt) (c : Nat) (x : ℚ) : Prop :=
  ∀ b : Nat, |floatValue f c - x| ≤ |floatValue f b - x| ∧
    (|floatValue f c - x| = |floatValue f b - x| → b = c ∨ c % 2 = 0)

/-- The encoding of a quotient is the one nearest to it, with an even last bit where another is as near: the others of its
run by the rounding, those outside the run because an end of the run is nearer. -/
theorem encodeRounded_correctlyRounded (f : FloatFmt) {num den : Nat} (hd : 0 < den) (h : den ≤ num * 2 ^ 4) :
    CorrectlyRounded f (encodeRounded f num den) (num / den) := by
  intro b
  have pos : (0 : ℚ) < divisor num den := by exact_mod_cast divisor_pos num hd
  have unit := lastPlace_pos f (runOf f num den)
  obtain ⟨low, high⟩ := significand_range f hd h
  have low' : ((2 ^ fracBits f : Nat) : ℚ) ≤ dividend f num / divisor num den := by
    rw [le_div_iff₀ pos]
    exact_mod_cast low
  have high' : (dividend f num / divisor num den : ℚ) ≤ (2 * 2 ^ fracBits f : Nat) := by
    rw [div_le_iff₀ pos]
    exact_mod_cast high.le
  obtain ⟨k, hk⟩ := floatValue_in_run_or_farther f (runOf f num den) low' high' b
  obtain ⟨nearest, tie⟩ := roundNearestEven_nearest (dividend f num) (divisor_pos num hd) k
  rw [floatValue_encodeRounded f hd h, quotient_eq f num hd, encodeRounded_eq f den (by omega)]
  simp only [← sub_mul, abs_mul, abs_of_pos unit] at hk ⊢
  rcases hk with ⟨rfl, value⟩ | farther
  · rw [value, ← sub_mul, abs_mul, abs_of_pos unit]
    refine ⟨mul_le_mul_of_nonneg_right nearest unit.le, fun same => ?_⟩
    have even : 2 ^ fracBits f % 2 = 0 := by cases f <;> decide
    exact (tie (mul_right_cancel₀ unit.ne' same)).imp (congrArg _) fun last => by
      rw [Nat.add_mod, Nat.mul_mod, even, last, mul_zero, Nat.zero_mod]
  · have nearer := (mul_le_mul_of_nonneg_right nearest unit.le).trans_lt farther
    exact ⟨nearer.le, fun same => absurd same nearer.ne⟩

end Sys2Proof.Machine
end

section
/-! The floating-point lanes of temperature and humidity (41_decoder.md R82; 30_encoding.md R50). -/

namespace Sys2Proof.Machine

/-- SCALE10 of a raw value other than 0 is at least 2^(-4), where the binades begin. -/
theorem fixDiv_le {raw : BitVec 16} (h : raw.toNat ≠ 0) : fixDiv ≤ raw.toNat * 2 ^ 4 := by
  unfold fixDiv
  omega

/-- SCALE10 of a 16-bit word is below 2^13. -/
theorem binade_scale10_le (raw : BitVec 16) : binade raw.toNat fixDiv ≤ 16 := by
  have bound : raw.toNat * 2 ^ 4 / fixDiv < 2 ^ 17 := by
    unfold fixDiv
    omega
  rw [binade, Nat.log2_eq_log_two]
  exact Nat.le_of_lt_succ (Nat.log_lt_of_lt_pow' (by decide) bound)

/-- The encodings of SCALE10 have the width of the format. -/
theorem encodeRounded_scale10_lt (f : FloatFmt) (raw : BitVec 16) :
    encodeRounded f raw.toNat fixDiv < 2 ^ floatWidth f := by
  rcases eq_or_ne raw.toNat 0 with zero | pos
  · rw [zero, encodeRounded_zero]
    positivity
  obtain ⟨-, high⟩ := roundedSignificand_range f (by decide) (fixDiv_le pos)
  have run : runOf f raw.toNat fixDiv ≤ expBias f + 11 := by
    have := binade_scale10_le raw
    unfold runOf
    omega
  calc encodeRounded f raw.toNat fixDiv ≤ (expBias f + 11) * 2 ^ fracBits f + 2 * 2 ^ fracBits f := by
        rw [encodeRounded_eq f fixDiv pos]
        exact Nat.add_le_add (Nat.mul_le_mul_right _ run) high
    _ < 2 ^ floatWidth f := by cases f <;> decide

/-- The lane of SCALE10 carries its encoding unchanged (R50). -/
theorem scale10Lane_toNat (f : FloatFmt) (raw : BitVec 16) :
    (scale10Lane f raw).toNat = encodeRounded f raw.toNat fixDiv := by
  have fits := encodeRounded_scale10_lt f raw
  cases f with
  | binary32 => exact Nat.mod_eq_of_lt fits
  | binary64 => exact Nat.mod_eq_of_lt fits

theorem scale10_zero {raw : BitVec 16} (h : raw.toNat = 0) : scale10 raw = 0 := by
  rw [scale10, h, Nat.cast_zero, zero_div]

/-- raw / 10 is a whole number of last places of its binade exactly if 5 divides raw: every binade of SCALE10 has a last
place for one half, and none has one for a tenth or a fifth. -/
theorem divisor_dvd_dividend_iff (f : FloatFmt) (raw : BitVec 16) :
    divisor raw.toNat fixDiv ∣ dividend f raw.toNat ↔ raw.toNat % 5 = 0 := by
  have places : binade raw.toNat fixDiv + 1 ≤ fracBits f + 4 := by
    have := binade_scale10_le raw
    have : 23 ≤ fracBits f := by cases f <;> decide
    omega
  have factors : divisor raw.toNat fixDiv = 5 * 2 ^ (binade raw.toNat fixDiv + 1) := by
    rw [divisor, fixDiv, pow_succ]
    ring
  rw [← Nat.dvd_iff_mod_eq_zero, factors, dividend]
  constructor
  · intro h
    have five : 5 ∣ raw.toNat * 2 ^ (fracBits f + 4) := (Dvd.intro _ rfl).trans h
    exact Nat.Coprime.dvd_of_dvd_mul_right (Nat.Coprime.pow_right _ (by decide)) five
  · exact fun h => Nat.mul_dvd_mul h (pow_dvd_pow 2 places)

/-- Settles O34: the encoding of the quotient raw / 10 is the nearest one; for raw = 0 it is exact and even. -/
theorem floatLanesAreCorrectlyRounded : Obligations.FloatLanesAreCorrectlyRounded := by
  intro f raw b _
  rw [scale10Lane_toNat]
  rcases eq_or_ne raw.toNat 0 with zero | pos
  · rw [zero, encodeRounded_zero, scale10_zero zero, floatValue_zero, sub_zero, abs_zero]
    exact ⟨abs_nonneg _, fun _ => .inr rfl⟩
  · exact encodeRounded_correctlyRounded f (by decide) (fixDiv_le pos) b

/-- Settles O35: raw / 10 = (raw / 5) / 2 is exact in a binade's last places exactly if raw / 5 is an integer. -/
theorem scaledValueIsExactForMultiplesOfFive : Obligations.ScaledValueIsExactForMultiplesOfFive := by
  refine ⟨fun f => ?_, fun f raw => ?_, rfl, rfl⟩
  · exact (scale10Lane_toNat f 0).trans (encodeRounded_zero f fixDiv)
  rw [scale10Lane_toNat]
  rcases eq_or_ne raw.toNat 0 with zero | pos
  · simp only [zero, encodeRounded_zero, scale10_zero zero, floatValue_zero]
  · exact (floatValue_encodeRounded_exact_iff f (by decide) (fixDiv_le pos)).trans (divisor_dvd_dividend_iff f raw)

end Sys2Proof.Machine
end

section
/-! What can fail (60_exceptions.md R100): no clock edge, and a read of a decoder output exactly before any frame. -/

namespace Sys2Proof.Machine

/-- A clock edge is admitted in every state (R113). -/
theorem admitted_of_edge {s : State} {rst inValid : Bool} {x : Byte} (h : s.stimulus = .edge rst inValid x) :
    s.admitted = true := by
  rw [State.admitted, h]

/-- A read of a decoder output is admitted exactly while a frame is held (R113, R120). -/
theorem admitted_of_sample {s : State} {f : Field} (h : s.stimulus = .sample f) : s.admitted = s.frameHeld := by
  rw [State.admitted, h]

/-- A clock edge never fails: it is a reset, an idle edge or an accepted byte (R100). -/
theorem step_of_edge {s : State} {rst inValid : Bool} {x : Byte} (h : s.stimulus = .edge rst inValid x) :
    ∃ t, step s = .next t := by
  cases rst with
  | true => exact ⟨_, step_of_reset h⟩
  | false =>
    cases inValid with
    | true => exact ⟨_, step_of_byte h⟩
    | false => exact ⟨_, step_of_idle h⟩

/-- Settles O18, by the kind of the stimulus: an edge goes on, and a read goes on or faults by frame_held. -/
theorem onlyAReadBeforeAnyFrameFails : Obligations.OnlyAReadBeforeAnyFrameFails := by
  intro s e rest hp
  have hs := stimulus_of_pending hp
  cases e with
  | edge rst inValid x => simp [admitted_of_edge hs, step_of_edge hs]
  | sample f =>
    rw [admitted_of_sample hs, step_of_sample hs]
    exact ⟨fun held => ⟨_, readPorts_next.2 ⟨held, rfl⟩⟩, fun unheld => readPorts_fault.2 ⟨unheld, rfl⟩, by simp⟩

end Sys2Proof.Machine
end

section
/-! Reset (70_reset_and_hazards.md R115 to R117): a reset edge leaves state 0 with no frame held, so the edges after it
are a stream fed from state 0. -/

namespace Sys2Proof.Machine

/-- Settles O14: RESET is what the step does at the edge, its stimulus taken. -/
theorem resetEdgeClearsTheBlock : Obligations.ResetEdgeClearsTheBlock := by
  refine fun s v => ⟨_, _, _, rfl, fun x rest hp => ?_⟩
  rw [step_of_reset (stimulus_of_pending hp), consume_of_pending hp]
  rfl

/-- After a reset edge: state 0, no frame held, the strobe low, the other stimuli pending (R115). -/
theorem step_of_reset_pending {s : State} {v : Bool} {y : Byte} {rest : List Stimulus}
    (hp : s.pending = .edge true v y :: rest) :
    ∃ t, step s = .next t ∧ t.cur = 0 ∧ t.frameHeld = false ∧ t.frameValid = false ∧ t.pending = rest := by
  obtain ⟨_, _, _, -, edge⟩ := resetEdgeClearsTheBlock s v
  exact ⟨_, edge y rest hp, rfl, rfl, rfl, rfl⟩

/-- In state 0 the byte 0x42 leads to state 1, and every other byte to state 0 (R60, R61). -/
theorem feed_next_cur_of_cur_zero (cfg : Config) {q : SyncState} (x : Byte) (hc : q.cur = 0) :
    (feed cfg q x).1.cur = if x = hdr0 then 1 else 0 := by
  rw [feed_cur_zero cfg x hc]
  split <;> rfl

/-- From state 0 an edge with rst = 0 leads to state 1 if it offers 0x42, and to state 0 otherwise (R60, R61, R65). -/
theorem slotStep_cur_of_cur_zero {s t : State} {e : Bool × Byte} {rest : List Stimulus} (hs : SlotStep s t e rest)
    (hc : s.cur = 0) : t.cur = if e = (true, hdr0) then 1 else 0 := by
  have cur : t.cur = (feedStream s.cfg s.sync (accepted [e])).1.cur := congrArg (·.cur) hs.sync
  obtain ⟨v, x⟩ := e
  cases v with
  | false => simpa [sync_eq, hc] using cur
  | true => simpa [feed_next_cur_of_cur_zero s.cfg x (q := s.sync) hc] using cur

/-- From state 0 every frame that a stream emits is a contiguous part of it (R68). -/
theorem infix_of_mem_feedStream {cfg : Config} {q : SyncState} {xs : List Byte} {f : Frame} (hc : q.cur = 0)
    (hf : some f ∈ (feedStream cfg q xs).2) : f.toList <:+: xs := by
  obtain ⟨t, ht⟩ := List.mem_iff_getElem?.1 hf
  obtain ⟨-, bytes⟩ := emittedFrameIsTheLast24Bytes cfg q xs t f hc ht
  rw [bytes]
  exact (List.take_prefix _ _).isInfix.trans (List.drop_suffix _ _).isInfix

/-- Settles O15: the reset edge emits nothing, and the edges after it feed the accepted bytes from state 0 (O48). -/
theorem resetAbandonsThePartialFrame : Obligations.ResetAbandonsThePartialFrame := by
  intro s v y slots rest hp
  obtain ⟨t, reset, cur, unheld, low, pending⟩ := step_of_reset_pending hp
  obtain ⟨-, shown⟩ := frameHeldIsSetByEmissionAndClearedByReset
  refine ⟨⟨t, reset, cur, (shown t unheld).1, ?_⟩, fun f hf => ?_⟩
  · rintro e slots' rfl
    obtain ⟨u, first⟩ := slotStep_of_pending pending
    exact ⟨u, first.next, slotStep_cur_of_cur_zero first cur⟩
  · obtain ⟨-, -, -, emits, -⟩ := idleCyclesChangeNoFrame t slots rest pending
    rw [emissions_of_next reset, emitted_of_strobe_low low, Option.toList_none, List.nil_append, emits] at hf
    exact infix_of_mem_feedStream cur (by simpa using hf)

end Sys2Proof.Machine
end

section
/-! Lost, extra and echoed bytes (70_reset_and_hazards.md R121, R124): a header and the next 22 bytes are a frame (O47),
whatever the sender meant them to be, and the stream goes on from state 0. -/

namespace Sys2Proof.Machine

/-- Settles O52. With a byte lost the next frame's 0x42 completes the body, and what is left of that frame is too short
for another, whatever its bytes are; with a byte too many the last one is fed in state 0. -/
theorem lostOrExtraBytesShiftTheFrame : Obligations.LostOrExtraBytesShiftTheFrame := by
  refine ⟨fun cfg q b c hc lenb lenc _ => ?_, fun cfg q b y hc lenb => ?_⟩
  · obtain ⟨f, bytes, outputs, cur⟩ := headerAndBodyEmitTheFrame cfg q (b ++ [0x42]) hc (by simp [lenb])
    have left := feedStream_short_silent cfg cur (xs := 0x4D :: c) (by simp [lenc])
    have cut : 0x42 :: 0x4D :: b ++ 0x42 :: 0x4D :: c = (0x42 :: 0x4D :: (b ++ [0x42])) ++ 0x4D :: c := by simp
    refine ⟨f, bytes, ?_⟩
    rw [cut, feedStream_append, outputs, left, List.length_cons, lenc]
  · obtain ⟨f, bytes, outputs, cur⟩ := headerAndBodyEmitTheFrame cfg q b hc lenb
    have silent := feedStream_short_silent cfg cur (xs := [y]) (by simp)
    refine ⟨f, bytes, ?_, ?_⟩
    · rw [feedStream_append, outputs, silent, List.append_assoc]
      rfl
    · rw [feedStream_append]
      exact feed_next_cur_of_cur_zero cfg y cur

/-- Settles O53: the command begins with the header, and its other five bytes and the 17 are the body of O47. -/
theorem echoedCommandIsTakenAsAFrame : Obligations.EchoedCommandIsTakenAsAFrame := by
  intro cfg q xs hc len
  obtain ⟨f, bytes, outputs, -⟩ :=
    headerAndBodyEmitTheFrame cfg q ([0xAB, 0x00, 0x00, 0x01, 0x3A] ++ xs) hc (by simp [len])
  exact ⟨f, bytes, outputs⟩

end Sys2Proof.Machine
end
